-- ==== Sys2Proof/Word.lean ====
section
/-! DEFINITION. The widths of the machine's values. Every value is an unsigned integer of its width
(00_scope R9); masking to n bits is reduction modulo 2^n, which is what `BitVec.ofNat n` does. -/

namespace Sys2Proof

/-- An 8-bit value: a memory cell, a V register, the stack pointer, an immediate (00_scope R7). -/
abbrev Byte := BitVec 8

/-- A 16-bit value: PC, I, a stack slot, an instruction word (00_scope R7). -/
abbrev Word := BitVec 16

/-- A 12-bit value: the digits 2 to 4 of an instruction word (00_scope R13). -/
abbrev Word12 := BitVec 12

/-- The number of a general register, V0 to VF (10_state R21). -/
abbrev VReg := Fin 16

/-- A hexadecimal digit of an instruction word that the decoder does not interpret (00_scope R13, `z`). -/
abbrev Digit := BitVec 4

end Sys2Proof
end

