-- ==== Sys2Proof/Config.lean ====
section
/-! DEFINITION. The parameters of 00_scope R7. The reset values among them are the spec's own decisions
(92_eei_decisions D3, D6, D8, D9), not the source's: log entry 1. No parameter is a free value. -/

namespace Sys2Proof.Config

/-- `MEM_SIZE`: the number of memory cells, and the first address that names none. -/
abbrev memSize : Nat := 0x1000

/-- `WRITE_LO`: a write below it is reported (20_memory R62). -/
abbrev writeLo : Nat := 0x200

/-- `WRITE_HI`: a write above it is reported, and has no cell (20_memory R62). -/
abbrev writeHi : Nat := 0xFFF

/-- `LOAD_BASE`: where the loader puts the first instruction word. -/
abbrev loadBase : Nat := 0x200

/-- `DISP_W`: the number of display columns. -/
abbrev dispW : Nat := 64

/-- `DISP_H`: the number of display rows. -/
abbrev dispH : Nat := 32

/-- `STACK_SLOTS`: one slot for every value of the 8-bit SP. -/
abbrev stackSlots : Nat := 256

/-- `INSTR_BYTES`: the bytes a fetch asks for. -/
abbrev instrBytes : Nat := 2

/-- `PC_STEP`: the uniform advance, and the extra advance of a skip. -/
abbrev pcStep : Word := 2

/-- `RESET_PC`. -/
abbrev resetPc : Word := 0x200

/-- `RESET_SP`. -/
abbrev resetSp : Byte := 0

/-- `RESET_V`, of each of V0 to VF. -/
abbrev resetV : Byte := 0

/-- `RESET_I`. -/
abbrev resetI : Word := 0

end Sys2Proof.Config
end

