-- ==== Sys2Proof/Machine/State.lean ====
section
/-! DEFINITION. The state of the machine, as plain data, and its reset value (10_state R20, R43, R46). -/

namespace Sys2Proof.Machine

/-- The two faults, which are also the values of the fault latch other than `none` (10_state R20, R43). -/
inductive Fault where
  /-- `FETCH_PARTIAL`: raised by a Step when exactly one of the two bytes at PC and PC + 1 is absent (43_cycle
  R183). Safe: the source gives the case no behaviour, and the machine stops where a reference might go on. -/
  | fetchPartial
  /-- `STACK_UNSET`: raised by RET, in a Step or through Exec, when the slot at SP is `UNSET`
  (40_control_transfer R120). Safe: the source leaves the value open, and the machine stops. -/
  | stackUnset
  deriving DecidableEq, Repr

/-- Why the model gives no meaning. -/
inductive Refusal where
  /-- An arm of `exec` whose instruction has no meaning yet. Raised by no arm now. Safe. -/
  | notModelled (mnemonic : String)
  /-- Program text that is not four hexadecimal digits for each word, given to the loader (45_host_interface
  R224, 93_implementation_defined U5). Raised by the host operation `loadText` only, never by a Step. Safe. -/
  | malformedProgramText
  deriving DecidableEq, Repr

/-- A record of the diagnostic channel, with its recorded value (60_exceptions R250, R262). -/
inductive Diag where
  /-- `REG_ACCESS(sel)` (60_exceptions R251). -/
  | regAccess (sel : Byte)
  /-- `MEM_RANGE(addr)` (60_exceptions R252). -/
  | memRange (addr : Nat)
  /-- `UNIMPLEMENTED(w)` (60_exceptions R253). -/
  | unimplemented (w : Word)
  deriving DecidableEq, Repr

/-- A store indexed by number, some of whose places hold a value: the keys strictly rising, so that equal
stores are equal lists. A place that is not listed holds nothing. -/
abbrev Sparse (α : Type) := List (Nat × α)

/-- Memory (10_state R34, 20_memory R60, R61): the populated cells, addresses strictly rising. -/
abbrev Memory := List Host.Cell

/-- The stack store (10_state R32, R33): the slots that are set, indices strictly rising. -/
abbrev Stack := Sparse Word

/-- The display grid (10_state R35): 32 rows of 64 one-bit cells. The cell in column x and row y is bit x of
row y. -/
abbrev Grid := Vector (BitVec Config.dispW) Config.dispH

/-- What a memory address that is not listed reads as: `ABSENT`, no value (20_memory R61, R67; log entry 13). -/
abbrev Memory.unlisted : Option Byte := none

/-- The canonical form of a store with `bound` places: keys strictly rising, every key below `bound`. -/
abbrev Sparse.wf {α : Type} (bound : Nat) (m : Sparse α) : Prop :=
  m.Pairwise (fun p q => p.1 < q.1) ∧ ∀ p ∈ m, p.1 < bound

/-- The canonical form of memory. No entry equals what an unlisted address reads as, since a listed one holds
a byte. -/
abbrev Memory.wf (m : Memory) : Prop := Sparse.wf Config.memSize m

/-- The canonical form of the stack store. -/
abbrev Stack.wf (m : Stack) : Prop := Sparse.wf Config.stackSlots m

/-- The state of one machine (10_state R20). Every field but `chan` is state the spec names. -/
structure State where
  /-- `V[0]` to `V[15]` (10_state R21, R22). -/
  v : Vector Byte 16
  /-- The index register (10_state R25). -/
  i : Word
  /-- The program counter (10_state R26). -/
  pc : Word
  /-- The stack pointer (10_state R30). -/
  sp : Byte
  /-- `STK[0]` to `STK[255]` (10_state R32, R33). -/
  stk : Stack
  /-- `MEM[0x000]` to `MEM[0xFFF]` (10_state R34). -/
  mem : Memory
  /-- `DISP[0..63][0..31]` (10_state R35). -/
  disp : Grid
  /-- The fault latch `FAULT` (10_state R43). -/
  fault : Option Fault
  /-- The diagnostic channel, oldest record first. An output, not state of the machine (10_state R44,
  60_exceptions R262): nothing reads it. DESIGN CHOICE, log entry 2, safe. -/
  chan : List Diag
  deriving DecidableEq, Repr

/-- The reset values, each a named parameter of 00_scope R7, so that a claim can quantify over them (10_state
R46). -/
structure ResetParams where
  pc : Word := Config.resetPc
  sp : Byte := Config.resetSp
  v : Byte := Config.resetV
  i : Word := Config.resetI
  mem : Memory := []
  stk : Stack := []
  disp : Grid := Vector.replicate Config.dispH 0
  deriving DecidableEq, Repr

/-- The state after reset for given reset values: no fault, and nothing on the channel (10_state R46). -/
def State.resetWith (p : ResetParams) : State where
  v := Vector.replicate 16 p.v
  i := p.i
  pc := p.pc
  sp := p.sp
  stk := p.stk
  mem := p.mem
  disp := p.disp
  fault := none
  chan := []

/-- The machine right after reset, with the values of 10_state R46 and 70_reset_and_hazards R281. They are the
spec's decisions, not the source's: UNVERIFIED, log entry 1, unsafe. -/
def State.reset : State := State.resetWith {}

end Sys2Proof.Machine
end

