-- ==== Sys2Proof/Machine/Ops.lean ====
section
/-! DEFINITION. The operations every instruction and every host operation is made of: the sparse stores, memory
access, the accessors of PC, SP, I and V, the stack slots, the diagnostic channel, the uniform advance, and
taking a fault. -/

namespace Sys2Proof.Machine

/-! ### The sparse stores -/

/-- What the place `k` holds. -/
def Sparse.read {α : Type} : Sparse α → Nat → Option α
  | [], _ => none
  | (a, x) :: rest, k => if a = k then some x else Sparse.read rest k

/-- The store with `x` at the place `k`, in canonical form. -/
def Sparse.write {α : Type} : Sparse α → Nat → α → Sparse α
  | [], k, x => [(k, x)]
  | (a, y) :: rest, k, x =>
    if k < a then (k, x) :: (a, y) :: rest
    else if a = k then (k, x) :: rest
    else (a, y) :: Sparse.write rest k x

/-- `MEM[addr]`: a byte, or `ABSENT` (20_memory R61). -/
def Memory.read (m : Memory) (addr : Nat) : Option Byte := (Sparse.read m addr).or Memory.unlisted

/-- `MEM[addr] <- b` for an address that names a cell (20_memory R61). -/
def Memory.write (m : Memory) (addr : Nat) (b : Byte) : Memory := Sparse.write m addr b

/-- `STK[k]`: a word, or `UNSET` (10_state R33). -/
def Stack.read (m : Stack) (k : Byte) : Option Word := Sparse.read m k.toNat

/-- `STK[k] <- w` (10_state R33). -/
def Stack.write (m : Stack) (k : Byte) (w : Word) : Stack := Sparse.write m k.toNat w

/-! ### The diagnostic channel and the conditions -/

/-- `emit d`: appended to the channel, and execution goes on (00_scope R12, 60_exceptions R262). -/
def State.emit (s : State) (d : Diag) : State := { s with chan := s.chan ++ [d] }

/-- The six conditions of 60_exceptions R250. -/
inductive Condition where
  | regAccess | memRange | unimplemented | noMoreInstructions | fetchPartial | stackUnset
  deriving DecidableEq, Repr

/-- The numeric code of a condition (60_exceptions R250). -/
def Condition.code : Condition → Nat
  | .regAccess => 1
  | .memRange => 2
  | .unimplemented => 3
  | .noMoreInstructions => 4
  | .fetchPartial => 5
  | .stackUnset => 6

/-- The condition a channel record reports (60_exceptions R250). -/
def Diag.condition : Diag → Condition
  | .regAccess _ => .regAccess
  | .memRange _ => .memRange
  | .unimplemented _ => .unimplemented

/-- The value a channel record carries (60_exceptions R250). -/
def Diag.value : Diag → Nat
  | .regAccess sel => sel.toNat
  | .memRange addr => addr
  | .unimplemented w => w.toNat

/-- The condition a fault is (60_exceptions R250). -/
def Fault.condition : Fault → Condition
  | .fetchPartial => .fetchPartial
  | .stackUnset => .stackUnset

/-- The value recorded when a fault is raised in the state `s`: PC for `FETCH_PARTIAL`, SP for `STACK_UNSET`
(60_exceptions R250, R255, R256). It is stored nowhere in the machine (R257). -/
def Fault.recorded (f : Fault) (s : State) : Nat :=
  match f with
  | .fetchPartial => s.pc.toNat
  | .stackUnset => s.sp.toNat

/-! ### Memory access -/

/-- Whether a write to `addr` is reported (20_memory R62). -/
def outOfWriteRange (addr : Nat) : Bool := addr < Config.writeLo || Config.writeHi < addr

/-- `MemWrite(addr, 1, v)` of 20_memory R62 to R64: the state after, and the stored byte. A write outside
`[0x200, 0xFFF]` is reported and still done; one with no cell stores nothing. -/
def State.memWrite (s : State) (addr v : Nat) : State × Byte :=
  let b := BitVec.ofNat 8 v
  let s := if outOfWriteRange addr then s.emit (.memRange addr) else s
  (if addr ≤ Config.writeHi then { s with mem := s.mem.write addr b } else s, b)

/-- The number of entries of `MemRead(addr, n)` (20_memory R65). -/
def readLength (addr n : Nat) : Nat := if Config.memSize ≤ addr then 0 else min n (Config.memSize - addr)

/-- `MemRead(addr, n)` of 20_memory R65 to R67: the in-range prefix, each entry a byte or `ABSENT`. It changes
no state. -/
def State.memRead (s : State) (addr n : Nat) : List (Option Byte) :=
  (List.range (readLength addr n)).map fun k => s.mem.read (addr + k)

/-! ### The register file -/

/-- `V[x]` (10_state R22). -/
def State.getV (s : State) (x : VReg) : Byte := s.v[x.val]

/-- `V[x] <- v`, which stores `v & 0xFF` (10_state R22). -/
def State.setV (s : State) (x : VReg) (v : Nat) : State := { s with v := s.v.set x.val (BitVec.ofNat 8 v) }

/-- `I <- v`, which stores `v & 0xFFFF` (10_state R25). -/
def State.setI (s : State) (v : Nat) : State := { s with i := BitVec.ofNat 16 v }

/-- SetPC: `PC <- v`, which stores `v & 0xFFFF` (10_state R26, R40). -/
def State.setPc (s : State) (v : Nat) : State := { s with pc := BitVec.ofNat 16 v }

/-- SetSP: `SP <- v`, which stores `v & 0xFF` (10_state R30, R41). -/
def State.setSp (s : State) (v : Nat) : State := { s with sp := BitVec.ofNat 8 v }

/-- IncSP: one more, modulo 256 (10_state R31). -/
def State.incSp (s : State) : State := { s with sp := s.sp + 1 }

/-- DecSP: one less, modulo 256, so 255 after 0 (10_state R31). -/
def State.decSp (s : State) : State := { s with sp := s.sp - 1 }

/-- `PC <- (PC + 2) & 0xFFFF`: the uniform advance of 43_cycle R187, and the extra advance of a skip
(41_conditional_load R146). -/
def State.advance (s : State) : State := { s with pc := s.pc + Config.pcStep }

/-- `addr & 0xFFF`, the address a jump target is cut to (40_control_transfer R121, R122, 10_state R29). -/
def jumpTarget (addr : Nat) : Word := (BitVec.ofNat 12 addr).setWidth 16

/-- `PC <- addr & 0xFFF` (40_control_transfer R121). -/
def State.jump (s : State) (addr : Nat) : State := { s with pc := jumpTarget addr }

/-! ### The stack store -/

/-- `STK[SP]` (10_state R30). -/
def State.top (s : State) : Option Word := s.stk.read s.sp

/-- `STK[SP] <- w` (40_control_transfer R122). -/
def State.setTop (s : State) (w : Word) : State := { s with stk := s.stk.write s.sp w }

/-! ### Faults and the end of an instruction -/

/-- Taking a fault, from the state before the operation: everything as it was, and the latch set
(43_cycle R191, 00_scope R12, 60_exceptions R257). This is the machine's whole exception entry; nothing is saved
and there is no return (R258). On a machine that is already faulted the latch takes the new code: DESIGN
CHOICE, log entry 6, unsafe. -/
def State.takeFault (s : State) (f : Fault) : State := { s with fault := some f }

/-- What a handler operation leaves: the state after it, or the fault it raised. -/
abbrev Handled := Except Fault State

/-- The end of an instruction that ran in the state `s`: the uniform advance after the handler (43_cycle R187),
or the fault taken with every effect of the handler discarded (R191). A fault that is raised is a next state,
the one with the latch set: DESIGN CHOICE, log entry 3. -/
def retire (s : State) : Handled → Host.Outcome State Fault Refusal
  | .ok t => .next t.advance
  | .error f => .next (s.takeFault f)

end Sys2Proof.Machine
end

