-- ==== Sys2Proof/Machine/Flags.lean ====
section
/-! DEFINITION. The hardware has no condition codes and no status register (10_state R36), so there is no flag to
compute. What stands in their place is the one test the instructions make, the equality of two unsigned values
(41_conditional_load R149), and the skip it decides (R146). -/

namespace Sys2Proof.Machine

/-- The equality test of SE and SNE, on unsigned values (00_scope R9, 41_conditional_load R140). -/
def testEqual (a b : Word) : Bool := a == b

/-- The extra advance of SE and SNE when the condition holds; the skipped bytes are not looked at
(41_conditional_load R146). -/
def State.skipIf (s : State) (c : Bool) : State := if c then s.advance else s

end Sys2Proof.Machine
end

