-- ==== Sys2Proof/Machine/Operands.lean ====
section
/-! DEFINITION. The operand forms: register select codes and the named access to the register file (10_state R37
to R39). Inside an instruction a register operand is always one of V0 to VF (R42). -/

namespace Sys2Proof.Machine

/-- What a register select code names (10_state R37). -/
inductive RegClass where
  /-- One of V0 to VF: general. -/
  | general (x : VReg)
  /-- I: general. -/
  | index
  /-- PC or SP: reserved, with dedicated accessors. -/
  | reserved
  /-- The stack store: not a simple numeric register. -/
  | wrongKind
  /-- Every other code. -/
  | unknown
  deriving DecidableEq, Repr

/-- The class of a select code: `0x00` to `0x0F` V0 to VF, `0x10` I, `0x11` PC, `0x12` SP, `0x13` STACK
(10_state R37, 00_scope R7). -/
def classify (sel : Byte) : RegClass :=
  if h : sel.toNat < 16 then .general ⟨sel.toNat, h⟩
  else if sel = 0x10#8 then .index
  else if sel = 0x11#8 then .reserved
  else if sel = 0x12#8 then .reserved
  else if sel = 0x13#8 then .wrongKind
  else .unknown

/-- The select code of a general register, as decode forms it (30_encoding R107). -/
def selOf (x : VReg) : Byte := BitVec.ofNat 8 x.val

/-- `RegRead(sel)` of 10_state R39: the value, or `INVALID` (`none`) with the report `REG_ACCESS(sel)`. The
value of a V register is seen as a 16-bit number, so that it compares with I as an unsigned integer (DEDUCED, log entry 14). -/
def State.regRead (s : State) (sel : Byte) : Option Word × State :=
  match classify sel with
  | .general x => (some ((s.getV x).setWidth 16), s)
  | .index => (some s.i, s)
  | .reserved | .wrongKind | .unknown => (none, s.emit (.regAccess sel))

/-- The report that a read of `sel` makes, if the code is not general (60_exceptions R251). -/
def State.reportAccess (s : State) (sel : Byte) : State := (s.regRead sel).2

/-- `RegWrite(sel, v)` of 10_state R38: masked to the register's width; for a code that is not general, the report
and no change. -/
def State.regWrite (s : State) (sel : Byte) (v : Nat) : State :=
  match classify sel with
  | .general x => s.setV x v
  | .index => s.setI v
  | .reserved | .wrongKind | .unknown => s.emit (.regAccess sel)

end Sys2Proof.Machine
end

