-- ==== Sys2Proof/Machine/ConditionalLoad.lean ====
section
/-! DEFINITION. SE, SNE and LD: the six handler operations (41_conditional_load R140 to R149) and the four skip
instructions. The handlers take register select codes, as the host's Exec gives them (R148); an instruction gives
the code of one of V0 to VF. -/

namespace Sys2Proof.Machine

/-- The shared immediate form of SE and SNE: compare a register with `kk & 0xFF` and skip when the test answers
`want`. A failed read has emitted its report, and the handler stops there (41_conditional_load R140, R141, R148). -/
def skipOnImm (want : Bool) (reg : Byte) (kk : Nat) (s : State) : State :=
  match s.regRead reg with
  | (some a, s) => s.skipIf (testEqual a ((BitVec.ofNat 8 kk).setWidth 16) == want)
  | (none, s) => s

/-- The shared register form of SE and SNE. Both registers are read, the first operand first, so that two invalid
operands give two reports in that order (41_conditional_load R142, R143, R148, 60_exceptions R260). -/
def skipOnReg (want : Bool) (reg reg2 : Byte) (s : State) : State :=
  match s.regRead reg with
  | (a, s) =>
    match a, s.regRead reg2 with
    | some a, (some b, s) => s.skipIf (testEqual a b == want)
    | _, (_, s) => s

/-- The handler of SE reg, kk (41_conditional_load R140). -/
def handleSeImm (reg : Byte) (kk : Nat) (s : State) : State := skipOnImm true reg kk s

/-- The handler of SNE reg, kk (41_conditional_load R141). -/
def handleSneImm (reg : Byte) (kk : Nat) (s : State) : State := skipOnImm false reg kk s

/-- The handler of SE reg, reg2 (41_conditional_load R142). -/
def handleSeReg (reg reg2 : Byte) (s : State) : State := skipOnReg true reg reg2 s

/-- The handler of SNE reg, reg2 (41_conditional_load R143). -/
def handleSneReg (reg reg2 : Byte) (s : State) : State := skipOnReg false reg reg2 s

/-- The handler of LD reg, kk, which no word reaches (41_conditional_load R144): the immediate is cut to 8 bits
before the register's own mask. -/
def handleLdImm (reg : Byte) (kk : Nat) (s : State) : State := s.regWrite reg (BitVec.ofNat 8 kk).toNat

/-- The handler of LD reg, reg2, which no word reaches (41_conditional_load R145). An invalid source ends the
operation with no write attempted; when the destination is invalid too, each operand is reported once, the first operand,
which is the destination, before the second (R148, 60_exceptions R260; DEDUCED, log entry 5). -/
def handleLdReg (reg reg2 : Byte) (s : State) : State :=
  match s.regRead reg2 with
  | (some t, s) => s.regWrite reg t.toNat
  | (none, _) => (s.reportAccess reg).reportAccess reg2

/-- SE Vx, kk, the instruction (41_conditional_load R140). -/
def execSeImm (x : VReg) (kk : Byte) (s : State) : Host.Outcome State Fault Refusal :=
  retire s (.ok (handleSeImm (selOf x) kk.toNat s))

/-- SNE Vx, kk, the instruction (41_conditional_load R141). -/
def execSneImm (x : VReg) (kk : Byte) (s : State) : Host.Outcome State Fault Refusal :=
  retire s (.ok (handleSneImm (selOf x) kk.toNat s))

/-- SE Vx, Vy, the instruction (41_conditional_load R142). -/
def execSeReg (x y : VReg) (s : State) : Host.Outcome State Fault Refusal :=
  retire s (.ok (handleSeReg (selOf x) (selOf y) s))

/-- SNE Vx, Vy, the instruction (41_conditional_load R143). -/
def execSneReg (x y : VReg) (s : State) : Host.Outcome State Fault Refusal :=
  retire s (.ok (handleSneReg (selOf x) (selOf y) s))

end Sys2Proof.Machine
end

