-- ==== Sys2Proof/Machine/ControlTransfer.lean ====
section
/-! DEFINITION. RET, JP and CALL: the handler operations and the instructions (40_control_transfer). Every control
transfer lands 2 bytes past its target, because the advance follows the handler (R123). -/

namespace Sys2Proof.Machine

/-- The handler of RET (40_control_transfer R120): the fault when `STK[SP]` is `UNSET`; else PC from the slot,
then SP one less. The slot keeps its value. -/
def handleRet (s : State) : Handled :=
  match s.top with
  | none => .error .stackUnset
  | some r => .ok { s.decSp with pc := r }

/-- The handler of JP (40_control_transfer R121). -/
def handleJp (addr : Nat) (s : State) : State := s.jump addr

/-- The handler of CALL (40_control_transfer R122): SP one more, then PC, which is still the address of the CALL,
into the slot at SP, then the jump. -/
def handleCall (addr : Nat) (s : State) : State := (s.incSp.setTop s.pc).jump addr

/-- RET, the instruction (40_control_transfer R120). -/
def execRet (s : State) : Host.Outcome State Fault Refusal := retire s (handleRet s)

/-- JP nnn, the instruction (40_control_transfer R121). -/
def execJp (nnn : Word12) (s : State) : Host.Outcome State Fault Refusal :=
  retire s (.ok (handleJp nnn.toNat s))

/-- CALL nnn, the instruction (40_control_transfer R122). -/
def execCall (nnn : Word12) (s : State) : Host.Outcome State Fault Refusal :=
  retire s (.ok (handleCall nnn.toNat s))

end Sys2Proof.Machine
end

