-- ==== Sys2Proof/Machine/Display.lean ====
section
/-! DEFINITION. The display framebuffer controller: Clear, Draw, CellOff, and the instruction CLS (42_display). -/

namespace Sys2Proof.Machine

/-- `DISP[c][r]`, the cell in column `c` and row `r`; outside the grid there is no cell (10_state R35). -/
def Grid.isOn (g : Grid) (c r : Nat) : Bool := if h : r < Config.dispH then g[r].getLsbD c else false

/-- `DISP[c][r] <- 1`; outside the grid, nothing (42_display R162). -/
def Grid.turnOn (g : Grid) (c r : Nat) : Grid :=
  if h : r < Config.dispH then g.set r (g[r] ||| BitVec.twoPow Config.dispW c) else g

/-- The grid with every cell off (42_display R161). -/
def Grid.allOff : Grid := Vector.replicate Config.dispH 0

/-- One bit of a sprite at column `c` and row `r`: a 1 inside the grid is a collision when the cell is already on,
and turns the cell on; a 0, or a place outside the grid, does nothing (42_display R162, R164 to R166). -/
def drawBit (bit : Bool) (c r : Nat) (acc : Grid × Bool) : Grid × Bool :=
  if bit && decide (c < Config.dispW) && decide (r < Config.dispH) then
    (acc.1.turnOn c r, acc.2 || acc.1.isOn c r)
  else acc

/-- One sprite byte on row `r`, from column `x0`, most significant bit first (42_display R162, R171). -/
def drawRow (row : Byte) (x0 r : Nat) (acc : Grid × Bool) : Grid × Bool :=
  (List.range 8).foldl (fun acc i => drawBit (row.getMsbD i) (x0 + i) r acc) acc

/-- The bytes of a sprite on the rows from `r` down (42_display R162). -/
def drawRows : List Byte → Nat → Nat → Grid × Bool → Grid × Bool
  | [], _, _, acc => acc
  | row :: rest, x0, r, acc => drawRows rest x0 (r + 1) (drawRow row x0 r acc)

/-- Draw on a grid: the start coordinates wrap once, the pixels clip, and the result says whether any drawn bit met
a cell that was on (42_display R162 to R165). -/
def Grid.draw (g : Grid) (sprite : List Byte) (x y : Nat) : Grid × Bool :=
  drawRows sprite (x % Config.dispW) (y % Config.dispH) (g, false)

/-- Clear (42_display R161). -/
def handleClear (s : State) : State := { s with disp := Grid.allOff }

/-- Draw, which no word reaches (42_display R162, R168). The collision is the operation's result, stored in no
register (R169). -/
def handleDraw (sprite : List Byte) (x y : Nat) (s : State) : State × Bool :=
  ({ s with disp := (s.disp.draw sprite x y).1 }, (s.disp.draw sprite x y).2)

/-- CellOff, for a column and a row of the grid (42_display R167). -/
def cellOff (c : Fin Config.dispW) (r : Fin Config.dispH) (s : State) : Bool := !s.disp.isOn c.val r.val

/-- CLS, the instruction (42_display R160). -/
def execCls (s : State) : Host.Outcome State Fault Refusal := retire s (.ok (handleClear s))

end Sys2Proof.Machine
end

