-- ==== Sys2Proof/Syntax.lean ====
section
/-! DEFINITION. The instructions: one constructor for each row of spec/opcode_table.json (30_encoding R102).
The register numbers, immediates and addresses are taken out of the word at decode (R107). -/

namespace Sys2Proof

/-- An instruction. The constructors `unimpl0` to `unimplF` are the groups of words the decoder does not
dispatch (43_cycle R200 to R209); each carries the 12 bits of its word that nothing interprets, because the
diagnostic records the whole word. -/
inductive Instr where
  /-- `00E0`: CLS (42_display R160). -/
  | cls
  /-- `00EE`: RET (40_control_transfer R120). -/
  | ret
  /-- `0nnn` other than the two above (43_cycle R200). -/
  | unimpl0 (u : Word12)
  /-- `1nnn`: JP nnn (40_control_transfer R121). -/
  | jp (nnn : Word12)
  /-- `2nnn`: CALL nnn (40_control_transfer R122). -/
  | call (nnn : Word12)
  /-- `3xkk`: SE Vx, kk (41_conditional_load R140). -/
  | seImm (x : VReg) (kk : Byte)
  /-- `4xkk`: SNE Vx, kk (41_conditional_load R141). -/
  | sneImm (x : VReg) (kk : Byte)
  /-- `5xyz`: SE Vx, Vy; `z` is kept so that the word can be written back, and ignored (30_encoding R99). -/
  | seReg (x y : VReg) (z : Digit)
  /-- `6...` (43_cycle R201). -/
  | unimpl6 (u : Word12)
  /-- `7...` (43_cycle R202). -/
  | unimpl7 (u : Word12)
  /-- `8...` (43_cycle R203). -/
  | unimpl8 (u : Word12)
  /-- `9xyz`: SNE Vx, Vy; `z` as in `seReg` (41_conditional_load R143). -/
  | sneReg (x y : VReg) (z : Digit)
  /-- `A...` (43_cycle R204). -/
  | unimplA (u : Word12)
  /-- `B...` (43_cycle R205). -/
  | unimplB (u : Word12)
  /-- `C...` (43_cycle R206). -/
  | unimplC (u : Word12)
  /-- `D...` (43_cycle R207). -/
  | unimplD (u : Word12)
  /-- `E...` (43_cycle R208). -/
  | unimplE (u : Word12)
  /-- `F...` (43_cycle R209). -/
  | unimplF (u : Word12)
  deriving DecidableEq, Repr

end Sys2Proof
end

