-- ==== Sys2Proof/WellFormed.lean ====
section
/-! DEFINITION. Which terms of `Instr` are instructions. The widths of the operands are in their types; the one
condition left is that group 0 does not hold the two words that are CLS and RET (30_encoding R96). -/

namespace Sys2Proof

/-- The check of 43_cycle R200: every word `0x0000` to `0x0FFF` except `0x00E0` and `0x00EE`. -/
def Instr.wellFormed : Instr → Bool
  | .unimpl0 u => u != 0x0E0#12 && u != 0x0EE#12
  | .cls | .ret | .jp _ | .call _ | .seImm _ _ | .sneImm _ _ | .seReg _ _ _ | .sneReg _ _ _ => true
  | .unimpl6 _ | .unimpl7 _ | .unimpl8 _ | .unimplA _ | .unimplB _ | .unimplC _ => true
  | .unimplD _ | .unimplE _ | .unimplF _ => true

/-- The instructions the decoder dispatches (00_scope R2): the eight encodings that are not unimplemented words. -/
def Instr.isDispatched : Instr → Bool
  | .cls | .ret | .jp _ | .call _ | .seImm _ _ | .sneImm _ _ | .seReg _ _ _ | .sneReg _ _ _ => true
  | .unimpl0 _ | .unimpl6 _ | .unimpl7 _ | .unimpl8 _ | .unimplA _ | .unimplB _ | .unimplC _ => false
  | .unimplD _ | .unimplE _ | .unimplF _ => false

/-- `Instr.wellFormed` as a proposition. -/
abbrev Instr.WellFormed (i : Instr) : Prop := i.wellFormed = true

end Sys2Proof
end

