-- ==== Sys2Proof/Decode.lean ====
section
/-! DEFINITION. The fields of an instruction word, the decoder, and the encoder written from the same table
(30_encoding R90 to R102). -/

namespace Sys2Proof

/-- Word formation (30_encoding R91, 43_cycle R184): the first fetched byte is digits 1 and 2. -/
def wordOfBytes (hi lo : Byte) : Word := hi ++ lo

/-- The byte at the lower address (20_memory R68). -/
def highByte (w : Word) : Byte := w.extractLsb' 8 8

/-- The byte at the higher address (20_memory R68). -/
def lowByte (w : Word) : Byte := w.extractLsb' 0 8

/-- Digit 1, the leading hexadecimal digit `op` (30_encoding R92). -/
def fieldOp (w : Word) : Digit := w.extractLsb' 12 4

/-- `nnn`: digits 2 to 4 (30_encoding R92). -/
def fieldNnn (w : Word) : Word12 := w.extractLsb' 0 12

/-- `x`: digit 2, a register number (30_encoding R92, R107). -/
def fieldX (w : Word) : VReg := (w.extractLsb' 8 4).toFin

/-- `kk`: digits 3 and 4 (30_encoding R92). -/
def fieldKk (w : Word) : Byte := w.extractLsb' 0 8

/-- `y`: digit 3, a register number (30_encoding R92, R107). -/
def fieldY (w : Word) : VReg := (w.extractLsb' 4 4).toFin

/-- `z`: digit 4 (30_encoding R92, R99). -/
def fieldZ (w : Word) : Digit := w.extractLsb' 0 4

/-- The decode cases by the leading digit (30_encoding R96 to R98), for a word that is neither CLS nor RET. The last
case is the digit F, the only one left. -/
def decodeByOp (op : Nat) (w : Word) : Instr :=
  match op with
  | 0x0 => .unimpl0 (fieldNnn w)
  | 0x1 => .jp (fieldNnn w)
  | 0x2 => .call (fieldNnn w)
  | 0x3 => .seImm (fieldX w) (fieldKk w)
  | 0x4 => .sneImm (fieldX w) (fieldKk w)
  | 0x5 => .seReg (fieldX w) (fieldY w) (fieldZ w)
  | 0x6 => .unimpl6 (fieldNnn w)
  | 0x7 => .unimpl7 (fieldNnn w)
  | 0x8 => .unimpl8 (fieldNnn w)
  | 0x9 => .sneReg (fieldX w) (fieldY w) (fieldZ w)
  | 0xA => .unimplA (fieldNnn w)
  | 0xB => .unimplB (fieldNnn w)
  | 0xC => .unimplC (fieldNnn w)
  | 0xD => .unimplD (fieldNnn w)
  | 0xE => .unimplE (fieldNnn w)
  | _ => .unimplF (fieldNnn w)

/-- The decoder, total on the 65536 words (30_encoding R95): the two exact words first, then the leading digit
(R100). -/
def decodeWord (w : Word) : Instr :=
  if w = 0x00E0#16 then .cls
  else if w = 0x00EE#16 then .ret
  else decodeByOp (fieldOp w).toNat w

/-- Why a list of bytes gives no instruction. No word is illegal (30_encoding R101); only bytes can be
missing. What a Step does then is 43_cycle R182 and R183. -/
inductive DecodeError where
  /-- No byte at all. -/
  | noBytes
  /-- One byte: half a word. -/
  | oneByte
  deriving DecidableEq, Repr

/-- The decoder on bytes in fetch order: the instruction and the bytes after it. Every instruction is exactly
two bytes long (30_encoding R90). -/
def decode : List Byte → Except DecodeError (Instr × List Byte)
  | [] => .error .noBytes
  | [_] => .error .oneByte
  | hi :: lo :: rest => .ok (decodeWord (wordOfBytes hi lo), rest)

/-- The word of an instruction, from the patterns of 30_encoding R93 and R102. -/
def encode : Instr → Word
  | .cls => 0x00E0#16
  | .ret => 0x00EE#16
  | .unimpl0 u => 0x0#4 ++ u
  | .jp nnn => 0x1#4 ++ nnn
  | .call nnn => 0x2#4 ++ nnn
  | .seImm x kk => 0x3#4 ++ BitVec.ofFin (w := 4) x ++ kk
  | .sneImm x kk => 0x4#4 ++ BitVec.ofFin (w := 4) x ++ kk
  | .seReg x y z => 0x5#4 ++ BitVec.ofFin (w := 4) x ++ BitVec.ofFin (w := 4) y ++ z
  | .unimpl6 u => 0x6#4 ++ u
  | .unimpl7 u => 0x7#4 ++ u
  | .unimpl8 u => 0x8#4 ++ u
  | .sneReg x y z => 0x9#4 ++ BitVec.ofFin (w := 4) x ++ BitVec.ofFin (w := 4) y ++ z
  | .unimplA u => 0xA#4 ++ u
  | .unimplB u => 0xB#4 ++ u
  | .unimplC u => 0xC#4 ++ u
  | .unimplD u => 0xD#4 ++ u
  | .unimplE u => 0xE#4 ++ u
  | .unimplF u => 0xF#4 ++ u

/-- The bytes of an instruction as memory holds them, high byte first (20_memory R68). -/
def encodeBytes (i : Instr) : List Byte := [highByte (encode i), lowByte (encode i)]

/-- The word whose bits, numbered as spec/opcode_table.json numbers them, are the low `nbits` bits of `w`; the
bits above are 0. -/
def tableWord (nbits w : Nat) : Word := BitVec.ofNat 16 (w % 2 ^ nbits)

/-- The instruction the decoder reads from a word of the opcode table, laid out as the hardware stores it. -/
def decodeTableWord (nbits w : Nat) : Option Instr :=
  match decode [highByte (tableWord nbits w), lowByte (tableWord nbits w)] with
  | .ok (i, _) => some i
  | .error _ => none

/-! ### The spec's own way of writing instructions (30_encoding R105, its decision D18); no effect on behaviour -/

/-- A hexadecimal digit as a character, letters in capitals. -/
def hexChar (d : Digit) : Char := Char.ofNat (if d.toNat < 10 then 0x30 + d.toNat else 0x37 + d.toNat)

/-- The hexadecimal digits of a word, most significant first: the form in which a program listing and the loader's
text give it (30_encoding R91, R104). -/
def wordDigits (w : Word) : List Char :=
  [hexChar (w.extractLsb' 12 4), hexChar (w.extractLsb' 8 4), hexChar (w.extractLsb' 4 4), hexChar (w.extractLsb' 0 4)]

/-- A register operand: `V` and the digit of its number (30_encoding R107). -/
def regText (x : VReg) : List Char := ['V', hexChar (BitVec.ofFin x)]

/-- An instruction as 30_encoding R105 writes it. The ignored digit of the register forms is not written; a word that
is not dispatched is written as the word. -/
def Instr.text (i : Instr) : String :=
  match i with
  | .cls => "CLS"
  | .ret => "RET"
  | .jp _ => String.ofList ("JP 0x".toList ++ (wordDigits (encode i)).drop 1)
  | .call _ => String.ofList ("CALL 0x".toList ++ (wordDigits (encode i)).drop 1)
  | .seImm x _ => String.ofList ("SE ".toList ++ regText x ++ ", 0x".toList ++ (wordDigits (encode i)).drop 2)
  | .sneImm x _ => String.ofList ("SNE ".toList ++ regText x ++ ", 0x".toList ++ (wordDigits (encode i)).drop 2)
  | .seReg x y _ => String.ofList ("SE ".toList ++ regText x ++ ", ".toList ++ regText y)
  | .sneReg x y _ => String.ofList ("SNE ".toList ++ regText x ++ ", ".toList ++ regText y)
  | .unimpl0 _ | .unimpl6 _ | .unimpl7 _ | .unimpl8 _ | .unimplA _ | .unimplB _ | .unimplC _ | .unimplD _ | .unimplE _
  | .unimplF _ => String.ofList (".word 0x".toList ++ wordDigits (encode i))

end Sys2Proof
end

