-- ==== Sys2Proof/Machine/Unimplemented.lean ====
section
/-! DEFINITION. The words the decoder does not dispatch (43_cycle R186, R200 to R209): each emits
`UNIMPLEMENTED(w)` with its whole word, and only PC advances. None is a fault and none has the meaning canonical
CHIP-8 gives it (30_encoding R108). -/

namespace Sys2Proof.Machine

/-- The unimplemented case of the dispatch (43_cycle R186): the report, and no other change. -/
def handleUnimplemented (w : Word) (s : State) : State := s.emit (.unimplemented w)

/-- A word of group 0 other than CLS and RET (43_cycle R200). -/
def execUnimpl0 (u : Word12) (s : State) : Host.Outcome State Fault Refusal :=
  retire s (.ok (handleUnimplemented (encode (.unimpl0 u)) s))

/-- A word of group 6 (43_cycle R201). -/
def execUnimpl6 (u : Word12) (s : State) : Host.Outcome State Fault Refusal :=
  retire s (.ok (handleUnimplemented (encode (.unimpl6 u)) s))

/-- A word of group 7 (43_cycle R202). -/
def execUnimpl7 (u : Word12) (s : State) : Host.Outcome State Fault Refusal :=
  retire s (.ok (handleUnimplemented (encode (.unimpl7 u)) s))

/-- A word of group 8 (43_cycle R203). -/
def execUnimpl8 (u : Word12) (s : State) : Host.Outcome State Fault Refusal :=
  retire s (.ok (handleUnimplemented (encode (.unimpl8 u)) s))

/-- A word of group A (43_cycle R204). -/
def execUnimplA (u : Word12) (s : State) : Host.Outcome State Fault Refusal :=
  retire s (.ok (handleUnimplemented (encode (.unimplA u)) s))

/-- A word of group B (43_cycle R205). -/
def execUnimplB (u : Word12) (s : State) : Host.Outcome State Fault Refusal :=
  retire s (.ok (handleUnimplemented (encode (.unimplB u)) s))

/-- A word of group C (43_cycle R206). -/
def execUnimplC (u : Word12) (s : State) : Host.Outcome State Fault Refusal :=
  retire s (.ok (handleUnimplemented (encode (.unimplC u)) s))

/-- A word of group D (43_cycle R207). -/
def execUnimplD (u : Word12) (s : State) : Host.Outcome State Fault Refusal :=
  retire s (.ok (handleUnimplemented (encode (.unimplD u)) s))

/-- A word of group E (43_cycle R208). -/
def execUnimplE (u : Word12) (s : State) : Host.Outcome State Fault Refusal :=
  retire s (.ok (handleUnimplemented (encode (.unimplE u)) s))

/-- A word of group F (43_cycle R209). -/
def execUnimplF (u : Word12) (s : State) : Host.Outcome State Fault Refusal :=
  retire s (.ok (handleUnimplemented (encode (.unimplF u)) s))

end Sys2Proof.Machine
end

