-- ==== Sys2Proof/Machine/Dispatch.lean ====
section
/-! DEFINITION. The dispatch of 43_cycle R185: one arm for each constructor of `Instr`. -/

namespace Sys2Proof.Machine

/-- The effect of an instruction: its handler and the uniform advance (43_cycle R185, R187). -/
def exec (i : Instr) (s : State) : Host.Outcome State Fault Refusal :=
  match i with
  | .cls => Sys2Proof.Machine.execCls s
  | .ret => Sys2Proof.Machine.execRet s
  | .unimpl0 u => Sys2Proof.Machine.execUnimpl0 u s
  | .jp nnn => Sys2Proof.Machine.execJp nnn s
  | .call nnn => Sys2Proof.Machine.execCall nnn s
  | .seImm x kk => Sys2Proof.Machine.execSeImm x kk s
  | .sneImm x kk => Sys2Proof.Machine.execSneImm x kk s
  | .seReg x y _ => Sys2Proof.Machine.execSeReg x y s
  | .unimpl6 u => Sys2Proof.Machine.execUnimpl6 u s
  | .unimpl7 u => Sys2Proof.Machine.execUnimpl7 u s
  | .unimpl8 u => Sys2Proof.Machine.execUnimpl8 u s
  | .sneReg x y _ => Sys2Proof.Machine.execSneReg x y s
  | .unimplA u => Sys2Proof.Machine.execUnimplA u s
  | .unimplB u => Sys2Proof.Machine.execUnimplB u s
  | .unimplC u => Sys2Proof.Machine.execUnimplC u s
  | .unimplD u => Sys2Proof.Machine.execUnimplD u s
  | .unimplE u => Sys2Proof.Machine.execUnimplE u s
  | .unimplF u => Sys2Proof.Machine.execUnimplF u s

end Sys2Proof.Machine
end

