-- ==== Sys2Proof/Machine/Fetch.lean ====
section
/-! DEFINITION. The fetch of a Step (43_cycle R181 to R184), and the placing of a word where the next Step fetches
it. -/

namespace Sys2Proof.Machine

/-- What the two fetched bytes make: no byte present (43_cycle R182), exactly one (R183), or a word (R184). -/
inductive Fetched where
  | absent
  | half
  | word (w : Word)
  deriving DecidableEq, Repr

/-- Entry `k` of a fetch: a byte is absent when its entry is missing or is `ABSENT` (43_cycle R181). -/
def fetchedByte (bytes : List (Option Byte)) (k : Nat) : Option Byte := bytes[k]?.join

/-- The bytes of a fetch put together (43_cycle R182 to R184). -/
def assemble : Option Byte → Option Byte → Fetched
  | some hi, some lo => .word (wordOfBytes hi lo)
  | none, none => .absent
  | some _, none => .half
  | none, some _ => .half

/-- The fetch: one MemRead of 2 bytes at the whole 16-bit PC, unmasked (43_cycle R181, 10_state R29). -/
def State.fetch (s : State) : Fetched :=
  let bytes := s.memRead s.pc.toNat Config.instrBytes
  assemble (fetchedByte bytes 0) (fetchedByte bytes 1)

/-- The address at which a word can be placed for the next fetch: PC, or the load base where the two bytes at PC
would not both be cells. -/
def placeAddr (s : State) : Nat := if s.pc.toNat < Config.writeHi then s.pc.toNat else Config.loadBase

/-- The state with `w` where the next Step fetches, its high byte first. PC stays, unless no word can be
fetched there; the latch is cleared, since a latched machine fetches nothing (43_cycle R191). This stands for a
program loaded from outside the machine: DESIGN CHOICE, log entry 12. -/
def placeWord (w : Word) (s : State) : State :=
  let a := placeAddr s
  { s with
    pc := BitVec.ofNat 16 a
    fault := none
    mem := (s.mem.write a (highByte w)).write (a + 1) (lowByte w) }

end Sys2Proof.Machine
end

