-- ==== Sys2Proof/Machine/Step.lean ====
section
/-! DEFINITION. One fetch-decode-execute cycle (43_cycle R180). -/

namespace Sys2Proof.Machine

/-- The Step of 43_cycle R180. A latched fault is answered at once, without a fetch (R191). With both bytes absent
nothing changes: the outcome `NoMoreInstructions` is no state and no halt (R182, R190), so the next state is the same
state (DESIGN CHOICE, log entry 4). With exactly one absent, the fault `FETCH_PARTIAL` is taken (R183; log entry 3).
Otherwise the word is decoded and executed (R184, R185). Which outcome of R189 a Step had is `stepReport`. -/
def step (s : State) : Host.Outcome State Fault Refusal :=
  match s.fault with
  | some f => .fault f
  | none =>
    match s.fetch with
    | .absent => .next s
    | .half => .next (s.takeFault .fetchPartial)
    | .word w => exec (decodeWord w) s

/-- The state with an instruction of the opcode table stored where `step` fetches its next one. -/
def State.withFetchWord (s : State) (nbits w : Nat) : State := placeWord (tableWord nbits w) s

end Sys2Proof.Machine
end

