-- ==== Sys2Proof/Machine/HostPort.lean ====
section
/-! DEFINITION. The host's operations on the core (45_host_interface R220 to R234): each is atomic, and acts between
Steps. -/

namespace Sys2Proof.Machine

/-- The outcome of a Step (43_cycle R189). -/
inductive StepOutcome where
  | ok
  | noMoreInstructions
  | fault (f : Fault)
  deriving DecidableEq, Repr

/-- The outcome of a Step, with the value 60_exceptions R250 records for it, if any. -/
structure StepReport where
  outcome : StepOutcome
  recorded : Option Nat
  deriving DecidableEq, Repr

/-- The report of a Step from `s` that answered the next state `t`: the fault it raised, the terminal signal, or
`Ok` (43_cycle R189, R182, R191). -/
def stepReport (s t : State) : StepReport :=
  match t.fault with
  | some f => ⟨.fault f, some (f.recorded s)⟩
  | none =>
    match s.fetch with
    | .absent => ⟨.noMoreInstructions, some s.pc.toNat⟩
    | .half | .word _ => ⟨.ok, none⟩

/-- What Exec runs: a handler operation or a display operation with operands, register operands being select codes
(45_host_interface R227). -/
inductive ExecOp where
  | ret
  | jp (addr : Nat)
  | call (addr : Nat)
  | seImm (reg : Byte) (kk : Nat)
  | seReg (reg reg2 : Byte)
  | sneImm (reg : Byte) (kk : Nat)
  | sneReg (reg reg2 : Byte)
  | ldImm (reg : Byte) (kk : Nat)
  | ldReg (reg reg2 : Byte)
  | clear
  | draw (sprite : List Byte) (x y : Nat)
  | cellOff (c : Fin Config.dispW) (r : Fin Config.dispH)
  deriving DecidableEq, Repr

/-- What Observe shows (45_host_interface R229). -/
inductive Item where
  | cell (c : Fin Config.dispW) (r : Fin Config.dispH)
  | slot (k : Byte)
  | fault
  deriving DecidableEq, Repr

/-- The host operations (45_host_interface R221). Addresses have 16 bits; values are unsigned integers of any size
(92_eei_decisions D11). `loadText` is Load given program text (R224). -/
inductive HostOp where
  | reset
  | load (words : List Word)
  | loadText (words : List (List Char))
  | memWrite (addr : Word) (value : Nat)
  | memRead (addr : Word) (n : Nat)
  | regWrite (sel : Byte) (value : Nat)
  | regRead (sel : Byte)
  | getPc
  | setPc (value : Nat)
  | getSp
  | setSp (value : Nat)
  | incSp
  | decSp
  | exec (op : ExecOp)
  | step
  | observe (item : Item)
  deriving DecidableEq, Repr

/-- The result of a host operation (45_host_interface R221). -/
inductive HostResult where
  | none
  /-- HostMemWrite: the stored byte. -/
  | byte (b : Byte)
  /-- HostMemRead: bytes and `ABSENT` entries. -/
  | bytes (bs : List (Option Byte))
  /-- RegRead: the value, or `INVALID`. -/
  | reg (v : Option Word)
  /-- GetPC. -/
  | pc (v : Word)
  /-- GetSP. -/
  | sp (v : Byte)
  /-- Exec(Draw): the collision; Exec(CellOff): whether the cell is off; Observe of a cell: whether it is on. -/
  | bool (b : Bool)
  /-- Step: its report; and Exec(RET) when it faults (45_host_interface R227). -/
  | report (r : StepReport)
  /-- Observe of a stack slot: a word or `UNSET`. -/
  | slot (v : Option Word)
  /-- Observe of the fault latch. -/
  | latch (f : Option Fault)
  deriving DecidableEq, Repr

/-- Load from the address `a` on: for each word the high byte, then the low byte, through MemWrite
(45_host_interface R222, R223). -/
def State.loadAt (s : State) (a : Nat) : List Word → State
  | [] => s
  | w :: rest =>
    let s := (s.memWrite a (highByte w).toNat).1
    let s := (s.memWrite (a + 1) (lowByte w).toNat).1
    s.loadAt (a + 2) rest

/-- The value of a hexadecimal digit, in either case (30_encoding R104). DEDUCED, log entry 10, safe. -/
def hexDigit (c : Char) : Option Digit :=
  let n := c.toNat
  if 0x30 ≤ n ∧ n ≤ 0x39 then some (BitVec.ofNat 4 (n - 0x30))
  else if 0x41 ≤ n ∧ n ≤ 0x46 then some (BitVec.ofNat 4 (n - 0x41 + 10))
  else if 0x61 ≤ n ∧ n ≤ 0x66 then some (BitVec.ofNat 4 (n - 0x61 + 10))
  else none

/-- A word of program text: exactly four hexadecimal digits (30_encoding R104, 45_host_interface R224). -/
def parseWord : List Char → Option Word
  | [a, b, c, d] =>
    match hexDigit a, hexDigit b, hexDigit c, hexDigit d with
    | some a, some b, some c, some d => some (a ++ b ++ c ++ d)
    | _, _, _, _ => none
  | _ => none

/-- Program text, word by word; `none` when any word is malformed. -/
def parseText : List (List Char) → Option (List Word)
  | [] => some []
  | cs :: rest =>
    match parseWord cs, parseText rest with
    | some w, some ws => some (w :: ws)
    | _, _ => none

/-- Exec (45_host_interface R227): the handler alone, without the uniform advance. -/
def execHostOp (op : ExecOp) (s : State) : State × HostResult :=
  match op with
  | .ret =>
    match handleRet s with
    | .ok t => (t, .none)
    | .error f => (s.takeFault f, .report ⟨.fault f, some (f.recorded s)⟩)
  | .jp addr => (handleJp addr s, .none)
  | .call addr => (handleCall addr s, .none)
  | .seImm reg kk => (handleSeImm reg kk s, .none)
  | .seReg reg reg2 => (handleSeReg reg reg2 s, .none)
  | .sneImm reg kk => (handleSneImm reg kk s, .none)
  | .sneReg reg reg2 => (handleSneReg reg reg2 s, .none)
  | .ldImm reg kk => (handleLdImm reg kk s, .none)
  | .ldReg reg reg2 => (handleLdReg reg reg2 s, .none)
  | .clear => (handleClear s, .none)
  | .draw sprite x y => ((handleDraw sprite x y s).1, .bool (handleDraw sprite x y s).2)
  | .cellOff c r => (s, .bool (cellOff c r s))

/-- Step (45_host_interface R228, 43_cycle R189). A latched machine returns its fault and records nothing new: DESIGN
CHOICE, log entry 9, safe. -/
def hostStep (s : State) : Except Refusal (State × HostResult) :=
  match step s with
  | .next t => .ok (t, .report (stepReport s t))
  | .fault f => .ok (s, .report ⟨.fault f, none⟩)
  | .refused r => .error r

/-- Observe (45_host_interface R229). -/
def observe (item : Item) (s : State) : HostResult :=
  match item with
  | .cell c r => .bool (s.disp.isOn c.val r.val)
  | .slot k => .slot (s.stk.read k)
  | .fault => .latch s.fault

/-- Reset: every piece of state at its reset value (70_reset_and_hazards R280). The channel, an output, keeps what was
delivered: DESIGN CHOICE, log entry 7, safe. -/
def hostReset (s : State) : State := { State.reset with chan := s.chan }

/-- A host operation: the state after it and its result, or the refusal of malformed program text
(45_host_interface R221). -/
def hostOp (op : HostOp) (s : State) : Except Refusal (State × HostResult) :=
  match op with
  | .reset => .ok (hostReset s, .none)
  | .load words => .ok (s.loadAt Config.loadBase words, .none)
  | .loadText words =>
    match parseText words with
    | some ws => .ok (s.loadAt Config.loadBase ws, .none)
    | none => .error .malformedProgramText
  | .memWrite addr value => .ok ((s.memWrite addr.toNat value).1, .byte (s.memWrite addr.toNat value).2)
  | .memRead addr n => .ok (s, .bytes (s.memRead addr.toNat n))
  | .regWrite sel value => .ok (s.regWrite sel value, .none)
  | .regRead sel => .ok ((s.regRead sel).2, .reg (s.regRead sel).1)
  | .getPc => .ok (s, .pc s.pc)
  | .setPc value => .ok (s.setPc value, .none)
  | .getSp => .ok (s, .sp s.sp)
  | .setSp value => .ok (s.setSp value, .none)
  | .incSp => .ok (s.incSp, .none)
  | .decSp => .ok (s.decSp, .none)
  | .exec op => .ok (execHostOp op s)
  | .step => hostStep s
  | .observe item => .ok (s, observe item s)

end Sys2Proof.Machine
end

