-- ==== Sys2Proof/Safety.lean ====
section
/-! DEFINITION. The terms in which claims about runs are made: the invariant of the state, what reaches what, and
when a run has ended. -/

namespace Sys2Proof.Machine

/-- The two stores are in canonical form (10_state R32, R34: 256 slots, 4096 cells). -/
abbrev State.Wf (s : State) : Prop := s.mem.wf ∧ s.stk.wf

/-- A latched fault still shows its cause: no operation after it has changed the state (60_exceptions R261,
43_cycle R191). Steps keep this; the host, which may move SP or write memory afterwards, need not. -/
abbrev State.FaultCause (s : State) : Prop :=
  (s.fault = some .fetchPartial → s.fetch = .half) ∧ (s.fault = some .stackUnset → s.top = none)

/-- The invariant that every Step keeps. -/
abbrev State.Inv (s : State) : Prop := s.Wf ∧ s.FaultCause

/-- The run has ended: the next Step's outcome is `NoMoreInstructions` (45_host_interface R232). A faulted machine
has not ended. -/
def State.Ended (s : State) : Prop := s.fault = none ∧ s.fetch = .absent

/-- The states the host can bring a machine to from `s`, by any operations in any order, Steps among them. -/
inductive Reaches : State → State → Prop where
  | refl (s : State) : Reaches s s
  | op {s t u : State} {o : HostOp} {r : HostResult} : Reaches s t → hostOp o t = .ok (u, r) → Reaches s u

/-- A sprite drawn from `(x, y)` has an unclipped 1 bit at the cell `(c, r)`: byte `j`, bit `i` from the most significant
(42_display R162 to R164, R171). -/
def Drawn (sprite : List Byte) (x y c r : Nat) : Prop :=
  c < 64 ∧ r < 32 ∧ ∃ j row i, sprite[j]? = some row ∧ i < 8 ∧ row.getLsbD (7 - i) = true ∧
    c = x % 64 + i ∧ r = y % 32 + j

/-- The 22 characters that are hexadecimal digits. -/
def IsHexDigit (c : Char) : Prop :=
  c ∈ ['0', '1', '2', '3', '4', '5', '6', '7', '8', '9', 'A', 'B', 'C', 'D', 'E', 'F', 'a', 'b', 'c', 'd', 'e', 'f']

/-- The digits of a word as text, most significant first, letters in either case (30_encoding R104): each character is,
up to its case, the one that stands for its digit. -/
def IsWordText (cs : List Char) (w : Word) : Prop :=
  cs.map Char.toUpper = [w.toNat / 4096, w.toNat / 256 % 16, w.toNat / 16 % 16, w.toNat % 16].map
    (['0', '1', '2', '3', '4', '5', '6', '7', '8', '9', 'A', 'B', 'C', 'D', 'E', 'F'].getD · '0')

/-- An outcome with its next state, if it has one, changed by `f`. -/
def onNext (f : State → State) : Host.Outcome State Fault Refusal → Host.Outcome State Fault Refusal
  | .next t => .next (f t)
  | .fault e => .fault e
  | .refused r => .refused r

/-- The answer of a host operation with its state changed by `f`. -/
def onAnswer (f : State → State) : Except Refusal (State × HostResult) → Except Refusal (State × HostResult)
  | .ok (t, r) => .ok (f t, r)
  | .error r => .error r

end Sys2Proof.Machine
end

