-- ==== Sys2Proof/Certificates/Slice0/Obligations.lean ====
section
/-! DEFINITION. The statements about the machine. OBLIGATIONS.json says of each what it rests on. -/

open Sys2Proof Sys2Proof.Machine

/-! ### Encoding -/

/-- Decoding the word of a well-formed instruction gives it back, every operand included; and so does decoding its two
bytes, with what follows them left over (30_encoding, sections 1 to 3). -/
def Obligations.DecodeOfEncodeIsTheInstruction : Prop :=
  ∀ i : Instr, i.WellFormed →
    decodeWord (encode i) = i ∧ ∀ rest : List Byte, decode (encodeBytes i ++ rest) = .ok (i, rest)

/-- Every one of the 65536 words decodes to a well-formed instruction whose word it is, so to exactly one
(30_encoding, section 3). -/
def Obligations.EveryWordDecodesToItsOneInstruction : Prop :=
  ∀ w : Word, (decodeWord w).WellFormed ∧ encode (decodeWord w) = w ∧
    ∀ i : Instr, i.WellFormed → encode i = w → i = decodeWord w

/-- The rows of the opcode map (30_encoding section 4), by match and mask in decode order: each row decodes to its own
constructor, with the bits of the word as its operands. Among them the six dispatched leading digits of 30_encoding R97. -/
def Obligations.OpcodeMapRowsDecode : Prop :=
  ∀ w : Word,
    (w = 0x00E0 → decodeWord w = .cls) ∧
    (w = 0x00EE → decodeWord w = .ret) ∧
    (w ≠ 0x00E0 → w ≠ 0x00EE →
      (w &&& 0xF000 = 0x0000 → decodeWord w = .unimpl0 (w.setWidth 12)) ∧
      (w &&& 0xF000 = 0x1000 → decodeWord w = .jp (w.setWidth 12)) ∧
      (w &&& 0xF000 = 0x2000 → decodeWord w = .call (w.setWidth 12)) ∧
      (w &&& 0xF000 = 0x3000 → decodeWord w = .seImm (w.extractLsb' 8 4).toFin (w.setWidth 8)) ∧
      (w &&& 0xF000 = 0x4000 → decodeWord w = .sneImm (w.extractLsb' 8 4).toFin (w.setWidth 8)) ∧
      (w &&& 0xF000 = 0x5000 →
        decodeWord w = .seReg (w.extractLsb' 8 4).toFin (w.extractLsb' 4 4).toFin (w.setWidth 4)) ∧
      (w &&& 0xF000 = 0x6000 → decodeWord w = .unimpl6 (w.setWidth 12)) ∧
      (w &&& 0xF000 = 0x7000 → decodeWord w = .unimpl7 (w.setWidth 12)) ∧
      (w &&& 0xF000 = 0x8000 → decodeWord w = .unimpl8 (w.setWidth 12)) ∧
      (w &&& 0xF000 = 0x9000 →
        decodeWord w = .sneReg (w.extractLsb' 8 4).toFin (w.extractLsb' 4 4).toFin (w.setWidth 4)) ∧
      (w &&& 0xF000 = 0xA000 → decodeWord w = .unimplA (w.setWidth 12)) ∧
      (w &&& 0xF000 = 0xB000 → decodeWord w = .unimplB (w.setWidth 12)) ∧
      (w &&& 0xF000 = 0xC000 → decodeWord w = .unimplC (w.setWidth 12)) ∧
      (w &&& 0xF000 = 0xD000 → decodeWord w = .unimplD (w.setWidth 12)) ∧
      (w &&& 0xF000 = 0xE000 → decodeWord w = .unimplE (w.setWidth 12)) ∧
      (w &&& 0xF000 = 0xF000 → decodeWord w = .unimplF (w.setWidth 12)))

/-- Words of every family decode as the table of 95_test_vectors section 2.3 lists them. -/
def Obligations.ListedWordsDecodeAsListed : Prop :=
  decodeTableWord 16 0x00E0 = some .cls ∧ decodeTableWord 16 0x00EE = some .ret ∧
  decodeTableWord 16 0x00E1 = some (.unimpl0 0x0E1) ∧ decodeTableWord 16 0x1ABC = some (.jp 0xABC) ∧
  decodeTableWord 16 0x2ABC = some (.call 0xABC) ∧ decodeTableWord 16 0x3A7F = some (.seImm 10 0x7F) ∧
  decodeTableWord 16 0x4F00 = some (.sneImm 15 0x00) ∧ decodeTableWord 16 0x512F = some (.seReg 1 2 0xF) ∧
  decodeTableWord 16 0x9AB7 = some (.sneReg 10 11 7) ∧ decodeTableWord 16 0x6A12 = some (.unimpl6 0xA12)

/-- The fourth digit of the register forms has no effect on what a word does (30_encoding section 3, digit 4). -/
def Obligations.DigitFourOfRegisterFormsIsIgnored : Prop :=
  ∀ (w w' : Word) (s : State), (w.toNat / 4096 = 5 ∨ w.toNat / 4096 = 9) → w.toNat / 16 = w'.toNat / 16 →
    exec (decodeWord w) s = exec (decodeWord w') s

/-! ### The Step -/

/-- When the machine is not faulted and the two bytes at PC are those of a well-formed instruction, a Step is `exec` of that
instruction at that state; the uniform advance is part of `exec` (43_cycle section 1). -/
def Obligations.StepRunsTheDecodedInstruction : Prop :=
  ∀ (s : State) (i : Instr), s.fault = none → i.WellFormed → s.pc.toNat < 0xFFF →
    s.mem.read s.pc.toNat = some (highByte (encode i)) →
    s.mem.read (s.pc.toNat + 1) = some (lowByte (encode i)) →
    step s = exec i s

/-- A word placed by `withFetchWord` is what the next Step runs, from any state; and it is placed at PC, with no more changed
than that, whenever the machine is not faulted and both bytes at PC are cells (the model's choice: log entry 12). -/
def Obligations.PlacedWordIsTheNextInstruction : Prop :=
  ∀ (s : State) (w : Word),
    step (s.withFetchWord 16 w.toNat) = exec (decodeWord w) (s.withFetchWord 16 w.toNat) ∧
    (s.fault = none → s.pc.toNat < 0xFFF →
      { s.withFetchWord 16 w.toNat with mem := s.mem } = s ∧
      ∀ a, (s.withFetchWord 16 w.toNat).mem.read a =
        if a = s.pc.toNat then some (highByte w) else if a = s.pc.toNat + 1 then some (lowByte w) else s.mem.read a)

/-- 43_cycle R187: an instruction is its handler, as Exec runs it, and then PC two more than the handler left it; a Step that
the host finds ended with `NoMoreInstructions` or with a fault, raised or latched, does not advance. -/
def Obligations.UniformAdvanceFollowsTheHandler : Prop :=
  ∀ s : State,
    exec .cls s = .next (execHostOp .clear s).1.advance ∧
    (s.top ≠ none → exec .ret s = .next (execHostOp .ret s).1.advance) ∧
    (∀ n, exec (.jp n) s = .next (execHostOp (.jp n.toNat) s).1.advance) ∧
    (∀ n, exec (.call n) s = .next (execHostOp (.call n.toNat) s).1.advance) ∧
    (∀ x kk, exec (.seImm x kk) s = .next (execHostOp (.seImm (selOf x) kk.toNat) s).1.advance) ∧
    (∀ x kk, exec (.sneImm x kk) s = .next (execHostOp (.sneImm (selOf x) kk.toNat) s).1.advance) ∧
    (∀ x y z, exec (.seReg x y z) s = .next (execHostOp (.seReg (selOf x) (selOf y)) s).1.advance) ∧
    (∀ x y z, exec (.sneReg x y z) s = .next (execHostOp (.sneReg (selOf x) (selOf y)) s).1.advance) ∧
    (∀ i ∈ [Instr.unimpl0, .unimpl6, .unimpl7, .unimpl8, .unimplA, .unimplB, .unimplC, .unimplD, .unimplE, .unimplF],
      ∀ u, exec (i u) s = .next (s.emit (.unimplemented (encode (i u)))).advance) ∧
    (∀ t : State, t.advance = { t with pc := BitVec.ofNat 16 ((t.pc.toNat + 2) % 65536) }) ∧
    (∀ t r, hostOp .step s = .ok (t, .report r) → r.outcome ≠ .ok → t.pc = s.pc)

/-- When both bytes at PC are absent, which is exactly in the three listed cases, the outcome is `NoMoreInstructions` with PC
recorded, and the state is unchanged (43_cycle section 1, the rule on no more instructions). That `step` answers it as a next state
is the model's choice: log entry 4. -/
def Obligations.NoMoreInstructionsExactlyWhenBothBytesAbsent : Prop :=
  ∀ s t : State, step s = .next t →
    ((stepReport s t).outcome = .noMoreInstructions ↔
      (0x1000 ≤ s.pc.toNat ∨ (s.pc.toNat = 0xFFF ∧ s.mem.read 0xFFF = none) ∨
        (s.pc.toNat ≤ 0xFFE ∧ s.mem.read s.pc.toNat = none ∧ s.mem.read (s.pc.toNat + 1) = none))) ∧
    ((stepReport s t).outcome = .noMoreInstructions →
      t = s ∧ (stepReport s t).recorded = some s.pc.toNat)

/-- 43_cycle R190: `NoMoreInstructions` is not a state. Any number of Steps leaves the machine as it is, with the same outcome
each time; and as soon as memory or PC is such that a word is fetched, a Step executes it. That `step` answers it as a next state
is the model's choice: log entry 4. -/
def Obligations.NoMoreInstructionsIsNotLatched : Prop :=
  ∀ s : State, s.Ended →
    (∀ k, Host.Core.run core k s = .next s) ∧
    hostOp .step s = .ok (s, .report ⟨.noMoreInstructions, some s.pc.toNat⟩) ∧
    ∀ (m : Memory) (p w : Word), State.fetch { s with mem := m, pc := p } = .word w →
      step { s with mem := m, pc := p } = exec (decodeWord w) { s with mem := m, pc := p }

/-- With exactly one of the two bytes at PC absent, a Step takes the fault `FETCH_PARTIAL` with PC recorded: the latch is set
and nothing else changes (the spec's decision D5; that the answer is a next state is the model's choice, log entry 3). -/
def Obligations.PartialFetchTakesTheFault : Prop :=
  ∀ s : State, s.fault = none →
    ((s.pc.toNat = 0xFFF ∧ s.mem.read 0xFFF ≠ none) ∨
      (s.pc.toNat < 0xFFF ∧ (s.mem.read s.pc.toNat).isSome ≠ (s.mem.read (s.pc.toNat + 1)).isSome)) →
    step s = .next { s with fault := some .fetchPartial } ∧
    hostOp .step s =
      .ok ({ s with fault := some .fetchPartial }, .report ⟨.fault .fetchPartial, some s.pc.toNat⟩)

/-- While the latch is set every Step returns that fault and changes nothing, however often it is asked (the spec's decision
D20); and `step` answers a fault in no other case, which is the model's choice, log entry 3, as it is that the fault returned again
carries no recorded value, log entry 9. -/
def Obligations.LatchedFaultStopsEveryStep : Prop :=
  ∀ (s : State) (f : Fault),
    (step s = .fault f ↔ s.fault = some f) ∧
    (s.fault = some f →
      hostOp .step s = .ok (s, .report ⟨.fault f, none⟩) ∧ ∀ k, Host.Core.run core (k + 1) s = .fault f)

/-- A machine that is not faulted always has a next state, whatever its memory holds: no instruction is refused, and no
instruction stops the machine. That a Step which raises a fault, and one that finds no instruction, answer a next state is the
model's choice: log entries 3 and 4. -/
def Obligations.UnfaultedMachineAlwaysSteps : Prop :=
  ∀ s : State, (∃ t, step s = .next t) ↔ s.fault = none

/-- The host's Step leaves the next state that `step` answers, and reports on it (45_host_interface, Step). A Step that raises a
fault changes nothing but the latch, and says which cause it had; one that executes a word leaves the latch clear (the spec's
decisions D5, D7 and D20; that raising a fault answers a next state is the model's choice, log entry 3). -/
def Obligations.FaultsArePrecise : Prop :=
  ∀ s t : State, step s = .next t →
    hostOp .step s = .ok (t, .report (stepReport s t)) ∧
    (∀ f, t.fault = some f → t = { s with fault := some f } ∧ (stepReport s t).outcome = .fault f) ∧
    (t.fault = some .fetchPartial ↔ s.fetch = .half) ∧
    (t.fault = some .stackUnset ↔ s.fetch = .word 0x00EE ∧ s.stk.read s.sp = none) ∧
    ((stepReport s t).outcome = .ok ↔ ∃ w, s.fetch = .word w ∧ ¬ (w = 0x00EE ∧ s.stk.read s.sp = none))

/-! ### The instructions -/

/-- 42_display R160: CLS turns every cell off, advances PC, and changes nothing else. -/
def Obligations.ClsTurnsEveryCellOff : Prop :=
  decodeWord 0x00E0 = .cls ∧
  (∀ s : State, ∃ t, exec .cls s = .next t ∧ t = { s with pc := s.pc + 2, disp := t.disp } ∧
    (∀ c r, t.disp.isOn c r = false) ∧ ((∀ c r, s.disp.isOn c r = false) → t = { s with pc := s.pc + 2 }))

/-- RET through a slot that is set: PC is the slot plus 2, SP is one less modulo 256, and nothing else changes, so the slot
keeps its value (40_control_transfer, RET). -/
def Obligations.RetReturnsTwoPastTheSlot : Prop :=
  decodeWord 0x00EE = .ret ∧
  ∀ (s : State) (r : Word), s.stk.read s.sp = some r →
    exec .ret s = .next { s with pc := r + 2, sp := s.sp - 1 } ∧
    execHostOp .ret s = ({ s with pc := r, sp := s.sp - 1 }, .none)

/-- RET through a slot that is unset takes the fault `STACK_UNSET` with SP recorded, as an instruction and through Exec: the
latch is set, nothing else changes, and the Step after it stops (the spec's decision D7; that the answer is a next state is the
model's choice, log entry 3, and so is Exec(RET) writing a latch that is already set, log entry 6). -/
def Obligations.RetOnUnsetSlotTakesTheFault : Prop :=
  ∀ s : State, s.stk.read s.sp = none →
    exec .ret s = .next { s with fault := some .stackUnset } ∧
    execHostOp .ret s = ({ s with fault := some .stackUnset }, .report ⟨.fault .stackUnset, some s.sp.toNat⟩) ∧
    step { s with fault := some .stackUnset } = .fault .stackUnset

/-- 40_control_transfer R121: JP lands 2 past its address and changes PC alone; through Exec the address is cut to 12 bits and
nothing is added. -/
def Obligations.JpLandsTwoPastItsTarget : Prop :=
  ∀ (s : State) (nnn : Word12),
    decodeWord (0x1#4 ++ nnn) = .jp nnn ∧
    exec (.jp nnn) s = .next { s with pc := BitVec.ofNat 16 (nnn.toNat + 2) } ∧
    nnn.toNat + 2 ≤ 0x1001 ∧
    (∀ addr : Nat, execHostOp (.jp addr) s = ({ s with pc := BitVec.ofNat 16 (addr % 4096) }, .none)) ∧
    (s.pc.toNat = nnn.toNat + 2 → exec (.jp nnn) s = .next s) ∧
    (0xFFE ≤ nnn.toNat → State.fetch { s with pc := BitVec.ofNat 16 (nnn.toNat + 2) } = .absent) ∧
    (nnn.toNat = 0xFFD → ∀ w, State.fetch { s with pc := BitVec.ofNat 16 (nnn.toNat + 2) } ≠ .word w)

/-- 40_control_transfer R122: CALL stores its own address in the slot above, which becomes the top, lands 2 past its target, and
changes nothing else; the slot index wraps at 255; there is no bound: of 257 nested calls, whatever runs between them leaving
SP as it was, the last writes the slot of the first. -/
def Obligations.CallStoresItsOwnAddress : Prop :=
  ∀ (s : State) (nnn : Word12),
    decodeWord (0x2#4 ++ nnn) = .call nnn ∧
    (∃ t, exec (.call nnn) s = .next t ∧
      t = { s with sp := s.sp + 1, stk := t.stk, pc := BitVec.ofNat 16 (nnn.toNat + 2) } ∧
      (∀ k, t.stk.read k = if k = s.sp + 1 then some s.pc else s.stk.read k)) ∧
    (∀ addr : Nat, ∃ t, execHostOp (.call addr) s = (t, .none) ∧
      t = { s with sp := s.sp + 1, stk := t.stk, pc := BitVec.ofNat 16 (addr % 4096) } ∧
      (∀ k, t.stk.read k = if k = s.sp + 1 then some s.pc else s.stk.read k)) ∧
    (s.sp = 255 → s.sp + 1 = 0) ∧ s.sp + 1 ≠ s.sp ∧
    (∀ (a b : Nat → State) (n : Nat → Word12), a 0 = s → (∀ k ≤ 256, exec (.call (n k)) (a k) = .next (b k)) →
      (∀ k < 256, (a (k + 1)).sp = (b k).sp) →
      (b 0).sp = s.sp + 1 ∧ (b 0).stk.read (s.sp + 1) = some s.pc ∧
      (b 256).sp = s.sp + 1 ∧ (b 256).stk.read (s.sp + 1) = some (a 256).pc)

/-- A CALL and a RET that finds SP and the slot as the CALL left them continue at the instruction after the CALL, with SP as it
was (40_control_transfer, the pairing of CALL and RET). -/
def Obligations.CallThenReturnContinuesAfterTheCall : Prop :=
  ∀ (s t u : State) (nnn : Word12), exec (.call nnn) s = .next t → u.sp = t.sp → u.stk.read u.sp = t.stk.read t.sp →
    exec .ret u = .next { u with pc := s.pc + 2, sp := s.sp }

/-- 41_conditional_load R140: SE Vx, kk. -/
def Obligations.SeImmSkipsOnEquality : Prop :=
  ∀ (s : State) (x : VReg) (kk : Byte),
    decodeWord (0x3#4 ++ BitVec.ofFin (w := 4) x ++ kk) = .seImm x kk ∧
    exec (.seImm x kk) s = .next { s with pc := if s.getV x = kk then s.pc + 4 else s.pc + 2 } ∧
    ∀ n : Nat, execHostOp (.seImm (selOf x) n) s =
      (if s.getV x = BitVec.ofNat 8 (n % 256) then { s with pc := s.pc + 2 } else s, .none)

/-- 41_conditional_load R141: SNE Vx, kk, the complement of SE. -/
def Obligations.SneImmSkipsOnInequality : Prop :=
  ∀ (s : State) (x : VReg) (kk : Byte),
    decodeWord (0x4#4 ++ BitVec.ofFin (w := 4) x ++ kk) = .sneImm x kk ∧
    exec (.sneImm x kk) s = .next { s with pc := if s.getV x ≠ kk then s.pc + 4 else s.pc + 2 } ∧
    (∀ n : Nat, execHostOp (.sneImm (selOf x) n) s =
      (if s.getV x ≠ BitVec.ofNat 8 (n % 256) then { s with pc := s.pc + 2 } else s, .none)) ∧
    (exec (.seImm x kk) s = .next { s with pc := s.pc + 4 } ↔ exec (.sneImm x kk) s = .next { s with pc := s.pc + 2 })

/-- 41_conditional_load R142: SE Vx, Vy, whatever the fourth digit. -/
def Obligations.SeRegSkipsOnEquality : Prop :=
  ∀ (s : State) (x y : VReg) (z : Digit),
    decodeWord (0x5#4 ++ BitVec.ofFin (w := 4) x ++ BitVec.ofFin (w := 4) y ++ z) = .seReg x y z ∧
    exec (.seReg x y z) s = .next { s with pc := if s.getV x = s.getV y then s.pc + 4 else s.pc + 2 } ∧
    execHostOp (.seReg (selOf x) (selOf y)) s =
      (if s.getV x = s.getV y then { s with pc := s.pc + 2 } else s, .none) ∧
    exec (.seReg x x z) s = .next { s with pc := s.pc + 4 }

/-- 41_conditional_load R143: SNE Vx, Vy, whatever the fourth digit, the complement of SE. -/
def Obligations.SneRegSkipsOnInequality : Prop :=
  ∀ (s : State) (x y : VReg) (z : Digit),
    decodeWord (0x9#4 ++ BitVec.ofFin (w := 4) x ++ BitVec.ofFin (w := 4) y ++ z) = .sneReg x y z ∧
    exec (.sneReg x y z) s = .next { s with pc := if s.getV x ≠ s.getV y then s.pc + 4 else s.pc + 2 } ∧
    execHostOp (.sneReg (selOf x) (selOf y)) s =
      (if s.getV x ≠ s.getV y then { s with pc := s.pc + 2 } else s, .none) ∧
    exec (.sneReg x x z) s = .next { s with pc := s.pc + 2 } ∧
    (exec (.seReg x y z) s = .next { s with pc := s.pc + 4 } ↔
      exec (.sneReg x y z) s = .next { s with pc := s.pc + 2 })

/-- 43_cycle R186 and R200 to R209: each word of the ten groups emits `UNIMPLEMENTED` with its word, advances PC by 2, and
changes nothing else. -/
def Obligations.UnimplementedWordsOnlyReport : Prop :=
  ∀ (s : State) (u : Word12),
    (u ≠ 0x0E0 → u ≠ 0x0EE → decodeWord (0x0#4 ++ u) = .unimpl0 u) ∧
    exec (.unimpl0 u) s = .next { s with pc := s.pc + 2, chan := s.chan ++ [.unimplemented (0x0#4 ++ u)] } ∧
    decodeWord (0x6#4 ++ u) = .unimpl6 u ∧
    exec (.unimpl6 u) s = .next { s with pc := s.pc + 2, chan := s.chan ++ [.unimplemented (0x6#4 ++ u)] } ∧
    decodeWord (0x7#4 ++ u) = .unimpl7 u ∧
    exec (.unimpl7 u) s = .next { s with pc := s.pc + 2, chan := s.chan ++ [.unimplemented (0x7#4 ++ u)] } ∧
    decodeWord (0x8#4 ++ u) = .unimpl8 u ∧
    exec (.unimpl8 u) s = .next { s with pc := s.pc + 2, chan := s.chan ++ [.unimplemented (0x8#4 ++ u)] } ∧
    decodeWord (0xA#4 ++ u) = .unimplA u ∧
    exec (.unimplA u) s = .next { s with pc := s.pc + 2, chan := s.chan ++ [.unimplemented (0xA#4 ++ u)] } ∧
    decodeWord (0xB#4 ++ u) = .unimplB u ∧
    exec (.unimplB u) s = .next { s with pc := s.pc + 2, chan := s.chan ++ [.unimplemented (0xB#4 ++ u)] } ∧
    decodeWord (0xC#4 ++ u) = .unimplC u ∧
    exec (.unimplC u) s = .next { s with pc := s.pc + 2, chan := s.chan ++ [.unimplemented (0xC#4 ++ u)] } ∧
    decodeWord (0xD#4 ++ u) = .unimplD u ∧
    exec (.unimplD u) s = .next { s with pc := s.pc + 2, chan := s.chan ++ [.unimplemented (0xD#4 ++ u)] } ∧
    decodeWord (0xE#4 ++ u) = .unimplE u ∧
    exec (.unimplE u) s = .next { s with pc := s.pc + 2, chan := s.chan ++ [.unimplemented (0xE#4 ++ u)] } ∧
    decodeWord (0xF#4 ++ u) = .unimplF u ∧
    exec (.unimplF u) s = .next { s with pc := s.pc + 2, chan := s.chan ++ [.unimplemented (0xF#4 ++ u)] }

/-- The frame of every instruction: the general registers, I and every byte of memory are as before; the display but for CLS; SP but
for CALL and RET; every stack slot but the one CALL writes; the latch but for RET on an unset slot; the channel but for the
ten groups that are not dispatched, which append one record. -/
def Obligations.EveryInstructionKeepsItsFrame : Prop :=
  ∀ (i : Instr) (s t : State), exec i s = .next t →
    (∀ x, t.getV x = s.getV x) ∧ t.i = s.i ∧ (∀ a, t.mem.read a = s.mem.read a) ∧
    (i ≠ .cls → ∀ c r, t.disp.isOn c r = s.disp.isOn c r) ∧
    (i ≠ .ret → (∀ n, i ≠ .call n) → t.sp = s.sp) ∧
    (∀ k, ((∀ n, i ≠ .call n) ∨ k ≠ s.sp + 1) → t.stk.read k = s.stk.read k) ∧
    (i ≠ .ret ∨ s.stk.read s.sp ≠ none → t.fault = s.fault) ∧
    t.chan = (if i.isDispatched then s.chan else s.chan ++ [.unimplemented (encode i)])

/-! ### Rules about the whole machine -/

/-- Steps alone, any number of them, change no general register, not I, and no byte of memory: a program sees in them only the
reset values and what the host wrote (10_state section 2, 20_memory section 4). -/
def Obligations.RunsKeepRegistersAndMemory : Prop :=
  ∀ (k : Nat) (s t : State), Host.Core.run core k s = .next t →
    t.v = s.v ∧ t.i = s.i ∧ t.mem = s.mem

/-- During Steps the display can only stay as it is or be cleared (42_display, the rule that Draw is not reachable). -/
def Obligations.RunsOnlyClearTheDisplay : Prop :=
  ∀ (k : Nat) (s t : State), Host.Core.run core k s = .next t →
    t.disp = s.disp ∨ ∀ c r, t.disp.isOn c r = false

/-- A Step emits at most one diagnostic, and that is `UNIMPLEMENTED` of the word it fetched (43_cycle section 1). -/
def Obligations.StepEmitsAtMostOneUnimplemented : Prop :=
  ∀ s t : State, step s = .next t →
    t.chan = s.chan ∨ ∃ w, s.fetch = .word w ∧ t.chan = s.chan ++ [.unimplemented w]

/-- The only slot a Step can change is the one above SP, by a CALL, which stores its own address there and makes it the top; so a
slot that is set stays set (10_state section 5). -/
def Obligations.StepsWriteSlotsOnlyByCall : Prop :=
  ∀ (s t : State) (k : Byte), step s = .next t → t.stk.read k ≠ s.stk.read k →
    k = s.sp + 1 ∧ t.sp = k ∧ t.stk.read k = some s.pc ∧ ∃ nnn : Word12, s.fetch = .word (0x2#4 ++ nnn)

/-- SP changes by CALL, one up, and by RET, one down, and by no other word (10_state section 1, the table's column on SP). -/
def Obligations.StepsMoveSpByOneOrNot : Prop :=
  ∀ s t : State, step s = .next t → t.sp ≠ s.sp →
    (t.sp = s.sp + 1 ∧ ∃ nnn : Word12, s.fetch = .word (0x2#4 ++ nnn)) ∨
    (t.sp = s.sp - 1 ∧ s.fetch = .word 0x00EE)

/-- Where a Step that executed leaves PC, from the word alone: the next word, the one after it, or 2 past the target (10_state
section 4). -/
def Obligations.StepMovesPcAsTheWordSays : Prop :=
  ∀ (s t : State) (w : Word), s.fault = none → s.fetch = .word w → step s = .next t → t.fault = none →
    (w.toNat / 4096 ∈ [1, 2] → t.pc.toNat = w.toNat % 4096 + 2) ∧
    (w = 0x00EE → ∃ r, s.stk.read s.sp = some r ∧ t.pc = r + 2) ∧
    (w.toNat / 4096 ∈ [3, 4, 5, 9] → t.pc = s.pc + 2 ∨ t.pc = s.pc + 4) ∧
    (w ≠ 0x00EE → w.toNat / 4096 ∉ [1, 2, 3, 4, 5, 9] → t.pc = s.pc + 2)

/-- The invariant every Step keeps, from any state that has it: both stores in canonical form, and a latched fault that still
shows its cause. -/
def Obligations.EveryStepKeepsTheInvariant : Prop :=
  ∀ s t : State, s.Inv → step s = .next t → t.Inv

/-- The machine right after reset has the invariant. -/
def Obligations.ResetHasTheInvariant : Prop := State.reset.Inv

/-- Every host operation, Steps among them, keeps both stores in canonical form; so equal contents stay equal data. -/
def Obligations.EveryHostOperationKeepsTheStoresCanonical : Prop :=
  ∀ (o : HostOp) (s t : State) (r : HostResult), s.Wf → hostOp o s = .ok (t, r) → t.Wf

/-- Two states the host can bring the machine to from reset, that agree in their registers, latch and channel and in what every
cell, slot and pixel reads as, are the same data. It rests on the reset values, log entry 1. -/
def Obligations.ReachableStatesAreDeterminedByTheirContents : Prop :=
  ∀ s t : State, Reaches State.reset s → Reaches State.reset t →
    s.v = t.v → s.i = t.i → s.pc = t.pc → s.sp = t.sp → s.fault = t.fault → s.chan = t.chan →
    (∀ a, s.mem.read a = t.mem.read a) → (∀ k, s.stk.read k = t.stk.read k) →
    (∀ c r, s.disp.isOn c r = t.disp.isOn c r) → s = t

/-- The diagnostic channel is an output: no host operation, Steps among them, depends on what is on it, and each only appends
(60_exceptions section 3, the diagnostic channel; that it stands in State is the model's choice, log entry 2, and that Reset keeps it
is log entry 7). -/
def Obligations.ChannelIsOnlyAnOutput : Prop :=
  ∀ (o : HostOp) (s : State) (c : List Diag),
    hostOp o { s with chan := c } =
      onAnswer (fun t => { t with chan := c ++ t.chan }) (hostOp o { s with chan := [] })

/-- No Step reads I or changes it (10_state section 3). -/
def Obligations.StepsIgnoreTheIndexRegister : Prop :=
  ∀ (s : State) (n : Word), step { s with i := n } = onNext (fun t => { t with i := n }) (step s)

/-- A Step reads no memory but the two bytes at PC and PC + 1 (43_cycle section 1, the fetch). -/
def Obligations.StepReadsOnlyTheTwoBytesAtPc : Prop :=
  ∀ (s : State) (m : Memory),
    m.read s.pc.toNat = s.mem.read s.pc.toNat → m.read (s.pc.toNat + 1) = s.mem.read (s.pc.toNat + 1) →
    step { s with mem := m } = onNext (fun t => { t with mem := m }) (step s)

/-- Only Reset forgets: no other host operation clears a latched fault, makes a populated cell absent, or makes a set slot unset
(10_state section 9, 20_memory section 1, 70_reset_and_hazards section 1). -/
def Obligations.OnlyResetForgets : Prop :=
  ∀ (o : HostOp) (s t : State) (r : HostResult), o ≠ .reset → hostOp o s = .ok (t, r) →
    (s.fault ≠ none → t.fault ≠ none) ∧
    (∀ a, s.mem.read a ≠ none → t.mem.read a ≠ none) ∧
    (∀ k, s.stk.read k ≠ none → t.stk.read k ≠ none)

/-- A cell goes from on to off only by Clear, by CLS or by Reset (42_display, the rule that Draw never erases). -/
def Obligations.OnlyClearTurnsCellsOff : Prop :=
  ∀ (o : HostOp) (s t : State) (r : HostResult) (c w : Nat), hostOp o s = .ok (t, r) →
    s.disp.isOn c w = true → t.disp.isOn c w = false →
    o = .reset ∨ o = .exec .clear ∨ (o = .step ∧ s.fetch = .word 0x00E0)

/-! ### The host's operations -/

/-- 10_state R38: RegWrite by select code. -/
def Obligations.RegWriteBySelectCode : Prop :=
  ∀ (s : State) (sel : Byte) (n : Nat),
    (∀ h : sel.toNat < 16, hostOp (.regWrite sel n) s =
      .ok ({ s with v := s.v.set sel.toNat (BitVec.ofNat 8 (n % 256)) }, .none)) ∧
    (sel.toNat = 0x10 → hostOp (.regWrite sel n) s = .ok ({ s with i := BitVec.ofNat 16 (n % 65536) }, .none)) ∧
    (0x11 ≤ sel.toNat → hostOp (.regWrite sel n) s = .ok ({ s with chan := s.chan ++ [.regAccess sel] }, .none))

/-- 10_state R22: a write of `n` to a general register stores `n & 0xFF`, and a read returns the stored value; no other
register changes. -/
def Obligations.GeneralRegisterReadsWhatWasWritten : Prop :=
  ∀ (s : State) (x : VReg) (n : Nat),
    ∃ t, hostOp (.regWrite (selOf x) n) s = .ok (t, .none) ∧
      hostOp (.regRead (selOf x)) t = .ok (t, .reg (some (BitVec.ofNat 16 (n % 256)))) ∧
      ∀ y, y ≠ x → hostOp (.regRead (selOf y)) t = .ok (t, .reg (some ((s.getV y).setWidth 16)))

/-- RegRead by select code: the value, or `INVALID` with the report and no change (the result `INVALID` is the spec's decision
D14, the codes its decision D12). -/
def Obligations.RegReadBySelectCode : Prop :=
  ∀ (s : State) (sel : Byte),
    (∀ h : sel.toNat < 16, hostOp (.regRead sel) s = .ok (s, .reg (some (BitVec.ofNat 16 s.v[sel.toNat].toNat)))) ∧
    (sel.toNat = 0x10 → hostOp (.regRead sel) s = .ok (s, .reg (some s.i))) ∧
    (0x11 ≤ sel.toNat → hostOp (.regRead sel) s = .ok ({ s with chan := s.chan ++ [.regAccess sel] }, .reg none))

/-- 10_state R31 and R41: the accessors of SP, with the wrap at both ends. -/
def Obligations.StackPointerAccessorsWrap : Prop :=
  ∀ s : State,
    (∀ n : Nat, hostOp (.setSp n) s = .ok ({ s with sp := BitVec.ofNat 8 (n % 256) }, .none)) ∧
    hostOp .getSp s = .ok (s, .sp s.sp) ∧
    (∃ t, hostOp .incSp s = .ok (t, .none) ∧ t = { s with sp := t.sp } ∧
      t.sp.toNat = (if s.sp.toNat = 255 then 0 else s.sp.toNat + 1) ∧ hostOp .decSp t = .ok (s, .none)) ∧
    (∃ t, hostOp .decSp s = .ok (t, .none) ∧ t = { s with sp := t.sp } ∧
      t.sp.toNat = (if s.sp.toNat = 0 then 255 else s.sp.toNat - 1) ∧ hostOp .incSp t = .ok (s, .none))

/-- The accessors of PC: SetPC masks to 16 bits and to no fewer, at either parity (10_state section 8). -/
def Obligations.ProgramCounterAccessorsMask : Prop :=
  ∀ (s : State) (n : Nat),
    ∃ t, hostOp (.setPc n) s = .ok (t, .none) ∧ t = { s with pc := t.pc } ∧ t.pc.toNat = n % 65536 ∧
      hostOp .getPc t = .ok (t, .pc t.pc)

/-- 20_memory R62: HostMemWrite stores the masked byte where there is a cell, reports outside `[0x200, 0xFFF]`, returns the
masked byte in every case, and changes nothing else. -/
def Obligations.MemWriteReportsAndStores : Prop :=
  ∀ (s : State) (addr : Word) (n : Nat),
    ∃ t, hostOp (.memWrite addr n) s = .ok (t, .byte (BitVec.ofNat 8 (n % 256))) ∧
      t = { s with mem := t.mem, chan := t.chan } ∧
      (∀ a, t.mem.read a =
        if a = addr.toNat ∧ addr.toNat ≤ 0xFFF then some (BitVec.ofNat 8 (n % 256)) else s.mem.read a) ∧
      t.chan = s.chan ++ (if addr.toNat < 0x200 ∨ 0xFFF < addr.toNat then [.memRange addr.toNat] else [])

/-- 20_memory R65: MemRead gives the in-range prefix, each entry what its cell holds, and changes nothing. -/
def Obligations.MemReadGivesTheInRangePrefix : Prop :=
  ∀ (s : State) (addr : Word) (n : Nat),
    ∃ bs : List (Option Byte), hostOp (.memRead addr n) s = .ok (s, .bytes bs) ∧
      bs.length = (if 4096 ≤ addr.toNat then 0 else min n (4096 - addr.toNat)) ∧
      ∀ k, k < bs.length → bs[k]? = some (s.mem.read (addr.toNat + k))

/-- Load places each word's high byte and then its low byte from 0x200 on, up to the end of memory, and leaves every other cell;
past the end each byte is reported, in ascending address order, and stored nowhere; nothing but memory and the channel changes (45_host_interface,
the loader; the spec's decision D21). -/
def Obligations.LoadPlacesWordsFromTheLoadBase : Prop :=
  ∀ (s : State) (ws : List Word),
    ∃ t, hostOp (.load ws) s = .ok (t, .none) ∧
      t = { s with mem := t.mem, chan := t.chan } ∧
      (∀ k w, ws[k]? = some w → 0x200 + 2 * k ≤ 0xFFF →
        t.mem.read (0x200 + 2 * k) = some (highByte w) ∧ t.mem.read (0x200 + 2 * k + 1) = some (lowByte w)) ∧
      (∀ a, (a < 0x200 ∨ 0xFFF < a ∨ 0x200 + 2 * ws.length ≤ a) → t.mem.read a = s.mem.read a) ∧
      t.chan = s.chan ++ (List.range' 0x1000 (2 * ws.length - 3584)).map Diag.memRange

/-- Program text is refused when some word is not exactly four hexadecimal digits, and otherwise is a Load of the words whose digits
it gives, most significant first; the digits of any words, as a listing gives them, are such a text (the spec's decision D21; which
characters are digits is the model's reading, log entry 10). -/
def Obligations.MalformedProgramTextIsRefused : Prop :=
  ∀ (s : State) (text : List (List Char)),
    ((∃ cs ∈ text, ¬ (cs.length = 4 ∧ ∀ c ∈ cs, IsHexDigit c)) →
      hostOp (.loadText text) s = .error .malformedProgramText) ∧
    ((∀ cs ∈ text, cs.length = 4 ∧ ∀ c ∈ cs, IsHexDigit c) →
      ∃ ws : List Word, List.Forall₂ IsWordText text ws ∧ hostOp (.loadText text) s = hostOp (.load ws) s) ∧
    (∀ ws : List Word, List.Forall₂ IsWordText text ws → hostOp (.loadText text) s = hostOp (.load ws) s) ∧
    (∀ ws : List Word, hostOp (.loadText (ws.map wordDigits)) s = hostOp (.load ws) s)

/-- 41_conditional_load R144: LD reg, kk through Exec. -/
def Obligations.LoadImmediateThroughExec : Prop :=
  ∀ (s : State) (reg : Byte) (kk : Nat),
    hostOp (.exec (.ldImm reg kk)) s = hostOp (.regWrite reg (kk % 256)) s ∧
    (∀ h : reg.toNat < 16, hostOp (.exec (.ldImm reg kk)) s =
      .ok ({ s with v := s.v.set reg.toNat (BitVec.ofNat 8 (kk % 256)) }, .none)) ∧
    (reg.toNat = 0x10 → hostOp (.exec (.ldImm reg kk)) s = .ok ({ s with i := BitVec.ofNat 16 (kk % 256) }, .none)) ∧
    (0x11 ≤ reg.toNat →
      hostOp (.exec (.ldImm reg kk)) s = .ok ({ s with chan := s.chan ++ [.regAccess reg] }, .none))

/-- 41_conditional_load R145: LD reg, reg2 through Exec: the source under the destination's mask; an invalid source reports and
writes nothing, a valid source with an invalid destination reports the destination; two invalid operands are reported once each,
the first operand first (R148 and 60_exceptions R260; that they hold of LD too is the model's reading, log entry 5). -/
def Obligations.LoadRegisterThroughExec : Prop :=
  ∀ (s : State) (reg reg2 : Byte),
    (∀ (h : reg.toNat < 16) (h2 : reg2.toNat < 16), hostOp (.exec (.ldReg reg reg2)) s =
      .ok ({ s with v := s.v.set reg.toNat s.v[reg2.toNat] }, .none)) ∧
    (reg.toNat = 0x10 → ∀ h2 : reg2.toNat < 16, hostOp (.exec (.ldReg reg reg2)) s =
      .ok ({ s with i := BitVec.ofNat 16 s.v[reg2.toNat].toNat }, .none)) ∧
    (∀ h : reg.toNat < 16, reg2.toNat = 0x10 → hostOp (.exec (.ldReg reg reg2)) s =
      .ok ({ s with v := s.v.set reg.toNat (BitVec.ofNat 8 (s.i.toNat % 256)) }, .none)) ∧
    (reg.toNat = 0x10 → reg2.toNat = 0x10 → hostOp (.exec (.ldReg reg reg2)) s = .ok (s, .none)) ∧
    (reg.toNat ≤ 0x10 → 0x11 ≤ reg2.toNat →
      hostOp (.exec (.ldReg reg reg2)) s = .ok ({ s with chan := s.chan ++ [.regAccess reg2] }, .none)) ∧
    (0x11 ≤ reg.toNat → 0x11 ≤ reg2.toNat → hostOp (.exec (.ldReg reg reg2)) s =
      .ok ({ s with chan := s.chan ++ [.regAccess reg, .regAccess reg2] }, .none)) ∧
    (0x11 ≤ reg.toNat → reg2.toNat ≤ 0x10 →
      hostOp (.exec (.ldReg reg reg2)) s = .ok ({ s with chan := s.chan ++ [.regAccess reg] }, .none)) ∧
    (reg = reg2 → reg.toNat ≤ 0x10 → hostOp (.exec (.ldReg reg reg2)) s = .ok (s, .none))

/-- SE and SNE through Exec with an operand that is not general report it and do not skip; two such operands are reported first
operand first (the spec's decision D14). -/
def Obligations.SkipsOnInvalidOperandsOnlyReport : Prop :=
  ∀ (s : State) (a b : Byte) (n : Nat),
    (0x11 ≤ a.toNat →
      execHostOp (.seImm a n) s = ({ s with chan := s.chan ++ [.regAccess a] }, .none) ∧
      execHostOp (.sneImm a n) s = ({ s with chan := s.chan ++ [.regAccess a] }, .none)) ∧
    (0x11 ≤ a.toNat ∨ 0x11 ≤ b.toNat →
      execHostOp (.seReg a b) s = execHostOp (.sneReg a b) s ∧
      execHostOp (.seReg a b) s =
        ({ s with chan := s.chan ++
          ((if 0x11 ≤ a.toNat then [.regAccess a] else []) ++ (if 0x11 ≤ b.toNat then [.regAccess b] else [])) },
          .none))

/-- SE and SNE through Exec on two registers that can be read, I among them, compare the values read as unsigned numbers, with no
advance but the skip (41_conditional_load, the handlers of SE and SNE; that I takes part with its 16 bits is read from RegRead, log
entry 14). -/
def Obligations.SkipsThroughExecCompareTheValuesRead : Prop :=
  ∀ (s : State) (a b : Byte) (m n : Word) (kk : Nat),
    hostOp (.regRead a) s = .ok (s, .reg (some m)) → hostOp (.regRead b) s = .ok (s, .reg (some n)) →
    execHostOp (.seReg a b) s = (if m = n then { s with pc := s.pc + 2 } else s, .none) ∧
    execHostOp (.sneReg a b) s = (if m ≠ n then { s with pc := s.pc + 2 } else s, .none) ∧
    execHostOp (.seImm a kk) s = (if m.toNat = kk % 256 then { s with pc := s.pc + 2 } else s, .none) ∧
    execHostOp (.sneImm a kk) s = (if m.toNat ≠ kk % 256 then { s with pc := s.pc + 2 } else s, .none)

/-- 42_display R162 to R164: after Draw a cell is on when it was on or when an unclipped 1 bit of the sprite lies on it; the
collision says that some such bit met a cell that was on; and nothing but the display changes. -/
def Obligations.DrawAddsTheUnclippedBits : Prop :=
  ∀ (s : State) (sprite : List Byte) (x y : Nat),
    ∃ t b, hostOp (.exec (.draw sprite x y)) s = .ok (t, .bool b) ∧ t = { s with disp := t.disp } ∧
      (∀ c r, t.disp.isOn c r = true ↔ s.disp.isOn c r = true ∨ Drawn sprite x y c r) ∧
      (b = true ↔ ∃ c r, Drawn sprite x y c r ∧ s.disp.isOn c r = true)

/-- Drawing a sprite again at the same place changes nothing, and collides exactly when the first drawing had a bit to draw
(42_display, the rules on collision and on OR, and the worked example's second drawing). -/
def Obligations.DrawingTwiceErasesNothing : Prop :=
  ∀ (s t : State) (sprite : List Byte) (x y : Nat) (b : Bool),
    hostOp (.exec (.draw sprite x y)) s = .ok (t, .bool b) →
    ∃ b', hostOp (.exec (.draw sprite x y)) t = .ok (t, .bool b') ∧ (b' = true ↔ ∃ c r, Drawn sprite x y c r)

/-- 42_display R161 and R167: Clear, which CLS reaches and no other instruction's effect resembles, and CellOff. -/
def Obligations.ClearAndCellOff : Prop :=
  ∀ s : State,
    (∃ t, exec .cls s = .next t ∧ ∀ c r, t.disp.isOn c r = false) ∧
    (∀ i t, i ≠ .cls → exec i s = .next t → t.disp = s.disp) ∧
    (∃ t, hostOp (.exec .clear) s = .ok (t, .none) ∧ t = { s with disp := t.disp } ∧
      ∀ (c : Fin 64) (r : Fin 32), hostOp (.exec (.cellOff c r)) t = .ok (t, .bool true)) ∧
    ∀ (c : Fin 64) (r : Fin 32),
      hostOp (.exec (.cellOff c r)) s = .ok (s, .bool (!(s.disp[r.val]).getLsbD c.val))

/-- Observe shows the cell, the slot or the latch and changes nothing (the spec's decision D22). -/
def Obligations.ObserveShowsAndChangesNothing : Prop :=
  ∀ (s : State) (c : Fin 64) (r : Fin 32) (k : Byte),
    (∀ b, hostOp (.exec (.cellOff c r)) s = .ok (s, .bool b) → hostOp (.observe (.cell c r)) s = .ok (s, .bool !b)) ∧
    hostOp (.observe (.slot k)) s = .ok (s, .slot (s.stk.read k)) ∧
    hostOp (.observe .fault) s = .ok (s, .latch s.fault)

/-- Each host operation changes no state but what the table of 45_host_interface gives it, the channel apart (the table's column on
the state an operation may change): Reset, Load and its text input, a Step, each operation of Exec, the ports and Observe. That Reset
leaves the channel is the model's choice, log entry 7. -/
def Obligations.HostOperationsChangeOnlyTheirState : Prop :=
  ∀ (s t : State) (r : HostResult),
    (hostOp .reset s = .ok (t, r) → t = { State.reset with chan := t.chan }) ∧
    (∀ text, hostOp (.loadText text) s = .ok (t, r) → t = { s with mem := t.mem, chan := t.chan }) ∧
    (hostOp .step s = .ok (t, r) →
      t = { s with pc := t.pc, sp := t.sp, stk := t.stk, disp := t.disp, fault := t.fault, chan := t.chan }) ∧
    (hostOp (.exec .ret) s = .ok (t, r) → t = { s with pc := t.pc, sp := t.sp, fault := t.fault }) ∧
    (∀ addr, hostOp (.exec (.jp addr)) s = .ok (t, r) → t = { s with pc := t.pc }) ∧
    (∀ addr, hostOp (.exec (.call addr)) s = .ok (t, r) → t = { s with pc := t.pc, sp := t.sp, stk := t.stk }) ∧
    (∀ a b n, ∀ op ∈ [ExecOp.seImm a n, .sneImm a n, .seReg a b, .sneReg a b], hostOp (.exec op) s = .ok (t, r) →
      t = { s with pc := t.pc, chan := t.chan }) ∧
    (∀ a b n, ∀ op ∈ [ExecOp.ldImm a n, .ldReg a b], hostOp (.exec op) s = .ok (t, r) →
      t = { s with v := t.v, i := t.i, chan := t.chan }) ∧
    (∀ sprite x y, ∀ op ∈ [ExecOp.clear, .draw sprite x y], hostOp (.exec op) s = .ok (t, r) →
      t = { s with disp := t.disp }) ∧
    (∀ c w, hostOp (.exec (.cellOff c w)) s = .ok (t, r) → t = s) ∧
    (∀ ws, hostOp (.load ws) s = .ok (t, r) → t = { s with mem := t.mem, chan := t.chan }) ∧
    (∀ a n, hostOp (.memWrite a n) s = .ok (t, r) → t = { s with mem := t.mem, chan := t.chan }) ∧
    (∀ sel n, hostOp (.regWrite sel n) s = .ok (t, r) → t = { s with v := t.v, i := t.i, chan := t.chan }) ∧
    (∀ n, hostOp (.setPc n) s = .ok (t, r) → t = { s with pc := t.pc }) ∧
    (∀ o ∈ [HostOp.incSp, .decSp], hostOp o s = .ok (t, r) → t = { s with sp := t.sp }) ∧
    (∀ n, hostOp (.setSp n) s = .ok (t, r) → t = { s with sp := t.sp }) ∧
    (∀ a n, hostOp (.memRead a n) s = .ok (t, r) → t = s) ∧
    (∀ sel, hostOp (.regRead sel) s = .ok (t, r) → t = { s with chan := t.chan }) ∧
    (∀ o ∈ [HostOp.getPc, .getSp], hostOp o s = .ok (t, r) → t = s) ∧
    (∀ item, hostOp (.observe item) s = .ok (t, r) → t = s)

/-- Reset puts every piece of state at its reset value, whatever the machine was, a latched fault included (the spec's decisions
D3, D6, D8, D9 and D20; that the channel keeps what was delivered is the model's choice, log entry 7). -/
def Obligations.ResetRestoresEveryPiece : Prop :=
  ∀ s : State, ∃ t, hostOp .reset s = .ok (t, .none) ∧
    t.pc = 0x200 ∧ t.sp = 0 ∧ (∀ x, t.getV x = 0) ∧ t.i = 0 ∧ t.fault = none ∧
    (∀ k, t.stk.read k = none) ∧ (∀ a, t.mem.read a = none) ∧ (∀ c r, t.disp.isOn c r = false) ∧ t.chan = s.chan ∧
    { t with chan := [] } = State.reset ∧ core.reset = State.reset
end

