-- ==== Sys2Proof/Laws/Decode.lean ====
section
/-! SUPPORT. Words as numbers: how the pieces of a word add up, and what each field of a word is. Every fact about
fields then is arithmetic. -/

namespace Sys2Proof

/-- Bits put side by side, as a number. -/
theorem toNat_append_add {m n : Nat} (a : BitVec m) (b : BitVec n) :
    (a ++ b).toNat = a.toNat * 2 ^ n + b.toNat := by
  rw [BitVec.toNat_append, ← Nat.shiftLeft_add_eq_or_of_lt b.isLt, Nat.shiftLeft_eq]

theorem toNat_wordOfBytes (hi lo : Byte) : (wordOfBytes hi lo).toNat = hi.toNat * 256 + lo.toNat :=
  toNat_append_add hi lo

/-- A word of format A, or one that is not interpreted: the digit and 12 bits (30_encoding R93). -/
theorem toNat_digit_word12 (d : Digit) (n : Word12) :
    BitVec.toNat (w := 16) (d ++ n) = d.toNat * 4096 + n.toNat :=
  toNat_append_add d n

/-- A word of format I (30_encoding R93). -/
theorem toNat_formatI (d : Digit) (x : VReg) (kk : Byte) :
    BitVec.toNat (w := 16) (d ++ BitVec.ofFin (w := 4) x ++ kk) = (d.toNat * 16 + x.val) * 256 + kk.toNat := by
  have h1 := toNat_append_add d (BitVec.ofFin (w := 4) x)
  have h2 := toNat_append_add (d ++ BitVec.ofFin (w := 4) x) kk
  have hx : (BitVec.ofFin (w := 4) x).toNat = x.val := rfl
  exact h2.trans (by omega)

/-- A word of format R (30_encoding R93). -/
theorem toNat_formatR (d : Digit) (x y : VReg) (z : Digit) :
    BitVec.toNat (w := 16) (d ++ BitVec.ofFin (w := 4) x ++ BitVec.ofFin (w := 4) y ++ z) =
      ((d.toNat * 16 + x.val) * 16 + y.val) * 16 + z.toNat := by
  have h1 := toNat_append_add d (BitVec.ofFin (w := 4) x)
  have h2 := toNat_append_add (d ++ BitVec.ofFin (w := 4) x) (BitVec.ofFin (w := 4) y)
  have h3 := toNat_append_add (d ++ BitVec.ofFin (w := 4) x ++ BitVec.ofFin (w := 4) y) z
  have hx : (BitVec.ofFin (w := 4) x).toNat = x.val := rfl
  have hy : (BitVec.ofFin (w := 4) y).toNat = y.val := rfl
  exact h3.trans (by omega)

theorem toNat_highByte (w : Word) : (highByte w).toNat = w.toNat / 256 := by
  have := w.isLt
  simp only [highByte, BitVec.extractLsb'_toNat, Nat.shiftRight_eq_div_pow]
  omega

theorem toNat_lowByte (w : Word) : (lowByte w).toNat = w.toNat % 256 := by
  simp [lowByte]

theorem toNat_fieldOp (w : Word) : (fieldOp w).toNat = w.toNat / 4096 := by
  have := w.isLt
  simp only [fieldOp, BitVec.extractLsb'_toNat, Nat.shiftRight_eq_div_pow]
  omega

theorem toNat_fieldNnn (w : Word) : (fieldNnn w).toNat = w.toNat % 4096 := by
  simp [fieldNnn]

theorem val_fieldX (w : Word) : (fieldX w).val = w.toNat / 256 % 16 := by
  have h : (fieldX w).val = (w.extractLsb' 8 4).toNat := rfl
  rw [h, BitVec.extractLsb'_toNat, Nat.shiftRight_eq_div_pow]

theorem toNat_fieldKk (w : Word) : (fieldKk w).toNat = w.toNat % 256 := by
  simp [fieldKk]

theorem val_fieldY (w : Word) : (fieldY w).val = w.toNat / 16 % 16 := by
  have h : (fieldY w).val = (w.extractLsb' 4 4).toNat := rfl
  rw [h, BitVec.extractLsb'_toNat, Nat.shiftRight_eq_div_pow]

theorem toNat_fieldZ (w : Word) : (fieldZ w).toNat = w.toNat % 16 := by
  simp [fieldZ]

@[simp] theorem wordOfBytes_high_low (w : Word) : wordOfBytes (highByte w) (lowByte w) = w := by
  apply BitVec.eq_of_toNat_eq
  rw [toNat_wordOfBytes, toNat_highByte, toNat_lowByte]
  omega

@[simp] theorem highByte_wordOfBytes (hi lo : Byte) : highByte (wordOfBytes hi lo) = hi := by
  apply BitVec.eq_of_toNat_eq
  have := lo.isLt
  rw [toNat_highByte, toNat_wordOfBytes]
  omega

@[simp] theorem lowByte_wordOfBytes (hi lo : Byte) : lowByte (wordOfBytes hi lo) = lo := by
  apply BitVec.eq_of_toNat_eq
  have := lo.isLt
  rw [toNat_lowByte, toNat_wordOfBytes]
  omega

/-! ### The decoder, by the leading digit -/

/-- The decoder past the two exact words, for the leading digit `d` (30_encoding R97, R98, R100). -/
theorem decodeWord_of_op {w : Word} (d : Nat) (hd : w.toNat / 4096 = d) (h0 : d ≠ 0) :
    decodeWord w = decodeByOp d w := by
  have h1 : w ≠ 0x00E0#16 := by rintro rfl; exact h0 hd.symm
  have h2 : w ≠ 0x00EE#16 := by rintro rfl; exact h0 hd.symm
  rw [decodeWord, if_neg h1, if_neg h2, toNat_fieldOp, hd]

/-- Group 0 (30_encoding R96). -/
theorem decodeWord_of_op_zero {w : Word} (hd : w.toNat / 4096 = 0) (h1 : w ≠ 0x00E0#16) (h2 : w ≠ 0x00EE#16) :
    decodeWord w = .unimpl0 (fieldNnn w) := by
  rw [decodeWord, if_neg h1, if_neg h2, toNat_fieldOp, hd]
  rfl

end Sys2Proof
end

