-- ==== Sys2Proof/Laws/Display.lean ====
section
/-! SUPPORT. The laws of the display grid: what each cell is after a cell is turned on, after one bit of a sprite is
drawn, and after Clear. -/

namespace Sys2Proof.Machine

@[simp] theorem Grid_isOn_allOff (c r : Nat) : Grid.isOn Grid.allOff c r = false := by
  unfold Grid.isOn Grid.allOff
  split <;> simp

/-- No cell is outside the grid. -/
theorem Grid_isOn_bounds {g : Grid} {c r : Nat} (h : g.isOn c r = true) : c < 64 ∧ r < 32 := by
  unfold Grid.isOn at h
  split at h
  · exact ⟨BitVec.lt_of_getLsbD h, by assumption⟩
  · cases h

/-- Turning a cell on changes that cell alone. -/
theorem Grid_isOn_turnOn (g : Grid) {c r : Nat} (hc : c < 64) (hr : r < 32) (c' r' : Nat) :
    (g.turnOn c r).isOn c' r' = (g.isOn c' r' || (decide (c = c') && decide (r = r'))) := by
  unfold Grid.turnOn
  rw [dif_pos (by exact hr)]
  unfold Grid.isOn
  by_cases hr' : r' < Config.dispH
  · rw [dif_pos hr', dif_pos hr']
    by_cases e : r = r'
    · subst e
      simp [BitVec.getLsbD_twoPow]
      grind
    · simp [e]
  · rw [dif_neg hr', dif_neg hr']
    have : r ≠ r' := by rintro rfl; exact hr' hr
    simp [this]

/-- Two grids whose cells are the same are the same. -/
theorem Grid_ext {g g' : Grid} (h : ∀ c r, g.isOn c r = g'.isOn c r) : g = g' := by
  apply Vector.ext
  intro r hr
  apply BitVec.eq_of_getLsbD_eq
  intro c _
  have := h c r
  unfold Grid.isOn at this
  rwa [dif_pos hr, dif_pos hr] at this

/-- Whether a bit is drawn at a place (42_display R162). -/
abbrev bitDrawn (bit : Bool) (c r : Nat) : Prop := bit = true ∧ c < 64 ∧ r < 32

theorem drawBit_of_drawn {bit : Bool} {c r : Nat} (h : bitDrawn bit c r) (acc : Grid × Bool) :
    drawBit bit c r acc = (acc.1.turnOn c r, acc.2 || acc.1.isOn c r) := by
  obtain ⟨hb, hc, hr⟩ := h
  simp [drawBit, hb, hc, hr]

theorem drawBit_of_not_drawn {bit : Bool} {c r : Nat} (h : ¬ bitDrawn bit c r) (acc : Grid × Bool) :
    drawBit bit c r acc = acc := by
  unfold drawBit
  rw [if_neg]
  simpa [bitDrawn, and_assoc] using h

end Sys2Proof.Machine
end

