-- ==== Sys2Proof/Laws/State.lean ====
section
/-! SUPPORT. What each update of the state does to each field, so that no later proof unfolds a record update. -/

namespace Sys2Proof.Machine

variable (s : State)

/-! ### `State.emit` -/

@[simp] theorem State_emit_v (d : Diag) : (s.emit d).v = s.v := rfl
@[simp] theorem State_emit_i (d : Diag) : (s.emit d).i = s.i := rfl
@[simp] theorem State_emit_pc (d : Diag) : (s.emit d).pc = s.pc := rfl
@[simp] theorem State_emit_sp (d : Diag) : (s.emit d).sp = s.sp := rfl
@[simp] theorem State_emit_stk (d : Diag) : (s.emit d).stk = s.stk := rfl
@[simp] theorem State_emit_mem (d : Diag) : (s.emit d).mem = s.mem := rfl
@[simp] theorem State_emit_disp (d : Diag) : (s.emit d).disp = s.disp := rfl
@[simp] theorem State_emit_fault (d : Diag) : (s.emit d).fault = s.fault := rfl
@[simp] theorem State_emit_chan (d : Diag) : (s.emit d).chan = s.chan ++ [d] := rfl

/-! ### `State.setV` -/

@[simp] theorem State_setV_v (x : VReg) (n : Nat) : (s.setV x n).v = s.v.set x.val (BitVec.ofNat 8 n) := rfl
@[simp] theorem State_setV_i (x : VReg) (n : Nat) : (s.setV x n).i = s.i := rfl
@[simp] theorem State_setV_pc (x : VReg) (n : Nat) : (s.setV x n).pc = s.pc := rfl
@[simp] theorem State_setV_sp (x : VReg) (n : Nat) : (s.setV x n).sp = s.sp := rfl
@[simp] theorem State_setV_stk (x : VReg) (n : Nat) : (s.setV x n).stk = s.stk := rfl
@[simp] theorem State_setV_mem (x : VReg) (n : Nat) : (s.setV x n).mem = s.mem := rfl
@[simp] theorem State_setV_disp (x : VReg) (n : Nat) : (s.setV x n).disp = s.disp := rfl
@[simp] theorem State_setV_fault (x : VReg) (n : Nat) : (s.setV x n).fault = s.fault := rfl
@[simp] theorem State_setV_chan (x : VReg) (n : Nat) : (s.setV x n).chan = s.chan := rfl

/-! ### `State.setI` -/

@[simp] theorem State_setI_v (n : Nat) : (s.setI n).v = s.v := rfl
@[simp] theorem State_setI_i (n : Nat) : (s.setI n).i = BitVec.ofNat 16 n := rfl
@[simp] theorem State_setI_pc (n : Nat) : (s.setI n).pc = s.pc := rfl
@[simp] theorem State_setI_sp (n : Nat) : (s.setI n).sp = s.sp := rfl
@[simp] theorem State_setI_stk (n : Nat) : (s.setI n).stk = s.stk := rfl
@[simp] theorem State_setI_mem (n : Nat) : (s.setI n).mem = s.mem := rfl
@[simp] theorem State_setI_disp (n : Nat) : (s.setI n).disp = s.disp := rfl
@[simp] theorem State_setI_fault (n : Nat) : (s.setI n).fault = s.fault := rfl
@[simp] theorem State_setI_chan (n : Nat) : (s.setI n).chan = s.chan := rfl

/-! ### `State.setPc` -/

@[simp] theorem State_setPc_v (n : Nat) : (s.setPc n).v = s.v := rfl
@[simp] theorem State_setPc_i (n : Nat) : (s.setPc n).i = s.i := rfl
@[simp] theorem State_setPc_pc (n : Nat) : (s.setPc n).pc = BitVec.ofNat 16 n := rfl
@[simp] theorem State_setPc_sp (n : Nat) : (s.setPc n).sp = s.sp := rfl
@[simp] theorem State_setPc_stk (n : Nat) : (s.setPc n).stk = s.stk := rfl
@[simp] theorem State_setPc_mem (n : Nat) : (s.setPc n).mem = s.mem := rfl
@[simp] theorem State_setPc_disp (n : Nat) : (s.setPc n).disp = s.disp := rfl
@[simp] theorem State_setPc_fault (n : Nat) : (s.setPc n).fault = s.fault := rfl
@[simp] theorem State_setPc_chan (n : Nat) : (s.setPc n).chan = s.chan := rfl

/-! ### `State.setSp` -/

@[simp] theorem State_setSp_v (n : Nat) : (s.setSp n).v = s.v := rfl
@[simp] theorem State_setSp_i (n : Nat) : (s.setSp n).i = s.i := rfl
@[simp] theorem State_setSp_pc (n : Nat) : (s.setSp n).pc = s.pc := rfl
@[simp] theorem State_setSp_sp (n : Nat) : (s.setSp n).sp = BitVec.ofNat 8 n := rfl
@[simp] theorem State_setSp_stk (n : Nat) : (s.setSp n).stk = s.stk := rfl
@[simp] theorem State_setSp_mem (n : Nat) : (s.setSp n).mem = s.mem := rfl
@[simp] theorem State_setSp_disp (n : Nat) : (s.setSp n).disp = s.disp := rfl
@[simp] theorem State_setSp_fault (n : Nat) : (s.setSp n).fault = s.fault := rfl
@[simp] theorem State_setSp_chan (n : Nat) : (s.setSp n).chan = s.chan := rfl

/-! ### `State.incSp` -/

@[simp] theorem State_incSp_v : s.incSp.v = s.v := rfl
@[simp] theorem State_incSp_i : s.incSp.i = s.i := rfl
@[simp] theorem State_incSp_pc : s.incSp.pc = s.pc := rfl
@[simp] theorem State_incSp_sp : s.incSp.sp = s.sp + 1 := rfl
@[simp] theorem State_incSp_stk : s.incSp.stk = s.stk := rfl
@[simp] theorem State_incSp_mem : s.incSp.mem = s.mem := rfl
@[simp] theorem State_incSp_disp : s.incSp.disp = s.disp := rfl
@[simp] theorem State_incSp_fault : s.incSp.fault = s.fault := rfl
@[simp] theorem State_incSp_chan : s.incSp.chan = s.chan := rfl

/-! ### `State.decSp` -/

@[simp] theorem State_decSp_v : s.decSp.v = s.v := rfl
@[simp] theorem State_decSp_i : s.decSp.i = s.i := rfl
@[simp] theorem State_decSp_pc : s.decSp.pc = s.pc := rfl
@[simp] theorem State_decSp_sp : s.decSp.sp = s.sp - 1 := rfl
@[simp] theorem State_decSp_stk : s.decSp.stk = s.stk := rfl
@[simp] theorem State_decSp_mem : s.decSp.mem = s.mem := rfl
@[simp] theorem State_decSp_disp : s.decSp.disp = s.disp := rfl
@[simp] theorem State_decSp_fault : s.decSp.fault = s.fault := rfl
@[simp] theorem State_decSp_chan : s.decSp.chan = s.chan := rfl

/-! ### `State.advance` -/

@[simp] theorem State_advance_v : s.advance.v = s.v := rfl
@[simp] theorem State_advance_i : s.advance.i = s.i := rfl
@[simp] theorem State_advance_pc : s.advance.pc = s.pc + 2 := rfl
@[simp] theorem State_advance_sp : s.advance.sp = s.sp := rfl
@[simp] theorem State_advance_stk : s.advance.stk = s.stk := rfl
@[simp] theorem State_advance_mem : s.advance.mem = s.mem := rfl
@[simp] theorem State_advance_disp : s.advance.disp = s.disp := rfl
@[simp] theorem State_advance_fault : s.advance.fault = s.fault := rfl
@[simp] theorem State_advance_chan : s.advance.chan = s.chan := rfl

/-! ### `State.jump` -/

@[simp] theorem State_jump_v (n : Nat) : (s.jump n).v = s.v := rfl
@[simp] theorem State_jump_i (n : Nat) : (s.jump n).i = s.i := rfl
@[simp] theorem State_jump_pc (n : Nat) : (s.jump n).pc = jumpTarget n := rfl
@[simp] theorem State_jump_sp (n : Nat) : (s.jump n).sp = s.sp := rfl
@[simp] theorem State_jump_stk (n : Nat) : (s.jump n).stk = s.stk := rfl
@[simp] theorem State_jump_mem (n : Nat) : (s.jump n).mem = s.mem := rfl
@[simp] theorem State_jump_disp (n : Nat) : (s.jump n).disp = s.disp := rfl
@[simp] theorem State_jump_fault (n : Nat) : (s.jump n).fault = s.fault := rfl
@[simp] theorem State_jump_chan (n : Nat) : (s.jump n).chan = s.chan := rfl

/-! ### `State.setTop` -/

@[simp] theorem State_setTop_v (w : Word) : (s.setTop w).v = s.v := rfl
@[simp] theorem State_setTop_i (w : Word) : (s.setTop w).i = s.i := rfl
@[simp] theorem State_setTop_pc (w : Word) : (s.setTop w).pc = s.pc := rfl
@[simp] theorem State_setTop_sp (w : Word) : (s.setTop w).sp = s.sp := rfl
@[simp] theorem State_setTop_stk (w : Word) : (s.setTop w).stk = s.stk.write s.sp w := rfl
@[simp] theorem State_setTop_mem (w : Word) : (s.setTop w).mem = s.mem := rfl
@[simp] theorem State_setTop_disp (w : Word) : (s.setTop w).disp = s.disp := rfl
@[simp] theorem State_setTop_fault (w : Word) : (s.setTop w).fault = s.fault := rfl
@[simp] theorem State_setTop_chan (w : Word) : (s.setTop w).chan = s.chan := rfl

/-! ### `State.takeFault` -/

@[simp] theorem State_takeFault_v (f : Fault) : (s.takeFault f).v = s.v := rfl
@[simp] theorem State_takeFault_i (f : Fault) : (s.takeFault f).i = s.i := rfl
@[simp] theorem State_takeFault_pc (f : Fault) : (s.takeFault f).pc = s.pc := rfl
@[simp] theorem State_takeFault_sp (f : Fault) : (s.takeFault f).sp = s.sp := rfl
@[simp] theorem State_takeFault_stk (f : Fault) : (s.takeFault f).stk = s.stk := rfl
@[simp] theorem State_takeFault_mem (f : Fault) : (s.takeFault f).mem = s.mem := rfl
@[simp] theorem State_takeFault_disp (f : Fault) : (s.takeFault f).disp = s.disp := rfl
@[simp] theorem State_takeFault_fault (f : Fault) : (s.takeFault f).fault = some f := rfl
@[simp] theorem State_takeFault_chan (f : Fault) : (s.takeFault f).chan = s.chan := rfl

/-! ### `handleClear` -/

@[simp] theorem handleClear_v : (handleClear s).v = s.v := rfl
@[simp] theorem handleClear_i : (handleClear s).i = s.i := rfl
@[simp] theorem handleClear_pc : (handleClear s).pc = s.pc := rfl
@[simp] theorem handleClear_sp : (handleClear s).sp = s.sp := rfl
@[simp] theorem handleClear_stk : (handleClear s).stk = s.stk := rfl
@[simp] theorem handleClear_mem : (handleClear s).mem = s.mem := rfl
@[simp] theorem handleClear_disp : (handleClear s).disp = Grid.allOff := rfl
@[simp] theorem handleClear_fault : (handleClear s).fault = s.fault := rfl
@[simp] theorem handleClear_chan : (handleClear s).chan = s.chan := rfl

/-! ### `State.memWrite` -/

@[simp] theorem State_memWrite_v (a n : Nat) : (s.memWrite a n).1.v = s.v := by
  unfold State.memWrite; dsimp only; split <;> split <;> rfl
@[simp] theorem State_memWrite_i (a n : Nat) : (s.memWrite a n).1.i = s.i := by
  unfold State.memWrite; dsimp only; split <;> split <;> rfl
@[simp] theorem State_memWrite_pc (a n : Nat) : (s.memWrite a n).1.pc = s.pc := by
  unfold State.memWrite; dsimp only; split <;> split <;> rfl
@[simp] theorem State_memWrite_sp (a n : Nat) : (s.memWrite a n).1.sp = s.sp := by
  unfold State.memWrite; dsimp only; split <;> split <;> rfl
@[simp] theorem State_memWrite_stk (a n : Nat) : (s.memWrite a n).1.stk = s.stk := by
  unfold State.memWrite; dsimp only; split <;> split <;> rfl
@[simp] theorem State_memWrite_mem (a n : Nat) :
    (s.memWrite a n).1.mem = if a ≤ Config.writeHi then s.mem.write a (BitVec.ofNat 8 n) else s.mem := by
  unfold State.memWrite; dsimp only; split <;> split <;> rfl
@[simp] theorem State_memWrite_disp (a n : Nat) : (s.memWrite a n).1.disp = s.disp := by
  unfold State.memWrite; dsimp only; split <;> split <;> rfl
@[simp] theorem State_memWrite_fault (a n : Nat) : (s.memWrite a n).1.fault = s.fault := by
  unfold State.memWrite; dsimp only; split <;> split <;> rfl
@[simp] theorem State_memWrite_chan (a n : Nat) :
    (s.memWrite a n).1.chan = if outOfWriteRange a then s.chan ++ [.memRange a] else s.chan := by
  unfold State.memWrite; dsimp only; split <;> split <;> rfl
@[simp] theorem State_memWrite_stored (a n : Nat) : (s.memWrite a n).2 = BitVec.ofNat 8 n := rfl

/-! ### `State.skipIf` -/

@[simp] theorem State_skipIf_true : s.skipIf true = s.advance := rfl
@[simp] theorem State_skipIf_false : s.skipIf false = s := rfl

/-! ### Registers -/

@[simp] theorem State_getV_setV_same (x : VReg) (n : Nat) : (s.setV x n).getV x = BitVec.ofNat 8 n := by
  simp [State.getV]

theorem State_getV_setV_other (x y : VReg) (n : Nat) (h : x ≠ y) : (s.setV x n).getV y = s.getV y := by
  simp only [State.getV, State_setV_v]
  exact Vector.getElem_set_ne _ _ (fun e => h (Fin.ext e))

end Sys2Proof.Machine
end

