-- ==== Sys2Proof/Laws/Registers.lean ====
section
/-! SUPPORT. What the named access to the register file and the skip handlers do. -/

namespace Sys2Proof.Machine

@[simp] theorem toNat_selOf (x : VReg) : (selOf x).toNat = x.val := by
  have := x.isLt
  simp only [selOf, BitVec.toNat_ofNat]
  omega

theorem classify_of_lt (sel : Byte) (h : sel.toNat < 16) : classify sel = .general ⟨sel.toNat, h⟩ := by
  rw [classify, dif_pos h]

@[simp] theorem classify_selOf (x : VReg) : classify (selOf x) = .general x := by
  rw [classify_of_lt _ (by simp)]
  simp

@[simp] theorem classify_index : classify 0x10#8 = .index := rfl
@[simp] theorem classify_pc : classify 0x11#8 = .reserved := rfl
@[simp] theorem classify_sp : classify 0x12#8 = .reserved := rfl
@[simp] theorem classify_stack : classify 0x13#8 = .wrongKind := rfl

/-- Every code above the named ones is unknown (10_state R37). -/
theorem classify_unknown (sel : Byte) (h : 0x13 < sel.toNat) : classify sel = .unknown := by
  have ne (c : Byte) (hc : c.toNat ≤ 0x13) : sel ≠ c := by rintro rfl; omega
  rw [classify, dif_neg (by omega), if_neg (ne _ (by decide)), if_neg (ne _ (by decide)),
    if_neg (ne _ (by decide)), if_neg (ne _ (by decide))]

/-- Inside an instruction a register read always succeeds and changes nothing (10_state R42). -/
@[simp] theorem regRead_selOf (s : State) (x : VReg) :
    s.regRead (selOf x) = (some ((s.getV x).setWidth 16), s) := by
  simp [State.regRead]

theorem regRead_index (s : State) : s.regRead 0x10#8 = (some s.i, s) := rfl

/-- All a register read can do: a value and no change, or `INVALID` and one report (10_state R39). -/
theorem regRead_cases (s : State) (sel : Byte) :
    (∃ n, s.regRead sel = (some n, s)) ∨ s.regRead sel = (none, s.emit (.regAccess sel)) := by
  unfold State.regRead
  split
  · exact .inl ⟨_, rfl⟩
  · exact .inl ⟨_, rfl⟩
  all_goals exact .inr rfl

/-- All a register write can do (10_state R38). -/
theorem regWrite_cases (s : State) (sel : Byte) (n : Nat) :
    (∃ x, s.regWrite sel n = s.setV x n) ∨ s.regWrite sel n = s.setI n ∨
      s.regWrite sel n = s.emit (.regAccess sel) := by
  unfold State.regWrite
  split
  · exact .inl ⟨_, rfl⟩
  · exact .inr (.inl rfl)
  all_goals exact .inr (.inr rfl)

theorem setWidth_beq (a b : Byte) : testEqual (a.setWidth 16) (b.setWidth 16) = (a == b) := by
  simp only [testEqual, beq_eq_beq, ← BitVec.toNat_inj, BitVec.toNat_setWidth]
  have := a.isLt
  have := b.isLt
  constructor <;> intro h <;> omega

/-- The immediate skips on one of V0 to VF (41_conditional_load R140, R141). -/
theorem skipOnImm_selOf (want : Bool) (x : VReg) (kk : Nat) (s : State) :
    skipOnImm want (selOf x) kk s = s.skipIf ((s.getV x == BitVec.ofNat 8 kk) == want) := by
  simp [skipOnImm, setWidth_beq]

/-- The register skips on two of V0 to VF (41_conditional_load R142, R143). -/
theorem skipOnReg_selOf (want : Bool) (x y : VReg) (s : State) :
    skipOnReg want (selOf x) (selOf y) s = s.skipIf ((s.getV x == s.getV y) == want) := by
  simp [skipOnReg, setWidth_beq]

/-- What a handler that only reads registers and may skip can leave: PC the only change but for the channel, which
only grows. -/
theorem skipIf_cases (s : State) (c : Bool) : s.skipIf c = s.advance ∨ s.skipIf c = s := by
  cases c <;> simp

theorem skipOnImm_cases (want : Bool) (reg : Byte) (kk : Nat) (s : State) :
    skipOnImm want reg kk s = s.advance ∨ skipOnImm want reg kk s = s ∨
      skipOnImm want reg kk s = s.emit (.regAccess reg) := by
  unfold skipOnImm
  rcases regRead_cases s reg with ⟨n, h⟩ | h <;> simp only [h]
  · rcases skipIf_cases s (testEqual n ((BitVec.ofNat 8 kk).setWidth 16) == want) with h | h <;> simp [h]
  · simp

theorem skipOnReg_cases (want : Bool) (reg reg2 : Byte) (s : State) :
    skipOnReg want reg reg2 s = s.advance ∨ skipOnReg want reg reg2 s = s ∨
      skipOnReg want reg reg2 s = s.emit (.regAccess reg) ∨
      skipOnReg want reg reg2 s = s.emit (.regAccess reg2) ∨
      skipOnReg want reg reg2 s = (s.emit (.regAccess reg)).emit (.regAccess reg2) := by
  unfold skipOnReg
  rcases regRead_cases s reg with ⟨n, h⟩ | h <;> simp only [h]
  · rcases regRead_cases s reg2 with ⟨m, h2⟩ | h2 <;> simp only [h2]
    · rcases skipIf_cases s (testEqual n m == want) with h | h <;> simp [h]
    · simp
  · rcases regRead_cases (s.emit (.regAccess reg)) reg2 with ⟨m, h2⟩ | h2 <;> simp only [h2] <;> simp

/-- All a report can do: nothing, or one record. -/
theorem reportAccess_cases (s : State) (sel : Byte) : s.reportAccess sel = s ∨ s.reportAccess sel = s.emit (.regAccess sel) := by
  rcases regRead_cases s sel with ⟨n, h⟩ | h <;> simp [State.reportAccess, h]

/-- All LD reg, reg2 can do: one write; or, for an invalid source, its report, after that of the destination if that is
invalid too. -/
theorem handleLdReg_cases (reg reg2 : Byte) (s : State) :
    (∃ n, handleLdReg reg reg2 s = s.regWrite reg n) ∨ handleLdReg reg reg2 s = s.emit (.regAccess reg2) ∨
      handleLdReg reg reg2 s = (s.emit (.regAccess reg)).emit (.regAccess reg2) := by
  unfold handleLdReg
  have report (t : State) (h : s.regRead reg2 = (none, s.emit (.regAccess reg2))) :
      t.reportAccess reg2 = t.emit (.regAccess reg2) := by
    unfold State.regRead at h
    unfold State.reportAccess State.regRead
    split at h <;> simp_all
  rcases regRead_cases s reg2 with ⟨n, h⟩ | h
  · simp only [h]; exact .inl ⟨_, rfl⟩
  · rw [h]
    refine .inr ?_
    rcases reportAccess_cases s reg with e | e <;> simp only [e, report _ h]
    · exact .inl trivial
    · exact .inr trivial

end Sys2Proof.Machine
end

