-- ==== Sys2Proof/Laws/Sparse.lean ====
section
/-! SUPPORT. The laws of the sparse stores: reading after writing, and the canonical form. -/

namespace Sys2Proof.Machine

variable {α : Type}

@[simp] theorem Sparse_read_nil (k : Nat) : Sparse.read ([] : Sparse α) k = none := rfl

theorem Sparse_read_cons (a : Nat) (x : α) (m : Sparse α) (k : Nat) :
    Sparse.read ((a, x) :: m) k = if a = k then some x else Sparse.read m k := rfl

/-- A place below every key holds nothing. -/
theorem Sparse_read_none (m : Sparse α) (k : Nat) (h : ∀ p ∈ m, k < p.1) : Sparse.read m k = none := by
  induction m with
  | nil => rfl
  | cons p m ih =>
    obtain ⟨a, x⟩ := p
    have hk : k < a := h (a, x) (by simp)
    rw [Sparse_read_cons, if_neg (by omega), ih fun q hq => h q (by simp [hq])]

@[simp] theorem Sparse_read_write_same (m : Sparse α) (k : Nat) (x : α) :
    Sparse.read (Sparse.write m k x) k = some x := by
  induction m with
  | nil => simp [Sparse.write, Sparse_read_cons]
  | cons p m ih =>
    obtain ⟨a, y⟩ := p
    unfold Sparse.write
    split
    · simp [Sparse_read_cons]
    · split
      · simp [Sparse_read_cons]
      · rwa [Sparse_read_cons, if_neg ‹_›]

theorem Sparse_read_write_other (m : Sparse α) (k j : Nat) (x : α) (h : k ≠ j) :
    Sparse.read (Sparse.write m k x) j = Sparse.read m j := by
  induction m with
  | nil => simp [Sparse.write, Sparse_read_cons, h]
  | cons p m ih =>
    obtain ⟨a, y⟩ := p
    unfold Sparse.write
    split
    · rw [Sparse_read_cons, if_neg h]
    · split
      · next hka => subst hka; simp [Sparse_read_cons, h]
      · simp [Sparse_read_cons, ih]

/-- The whole read law. -/
theorem Sparse_read_write (m : Sparse α) (k j : Nat) (x : α) :
    Sparse.read (Sparse.write m k x) j = if k = j then some x else Sparse.read m j := by
  split
  · next h => subst h; exact Sparse_read_write_same m k x
  · next h => exact Sparse_read_write_other m k j x h

/-- A key of the store after a write is the written one or was there. -/
theorem Sparse_mem_write {m : Sparse α} {k : Nat} {x : α} {p : Nat × α} (h : p ∈ Sparse.write m k x) :
    p = (k, x) ∨ p ∈ m := by
  induction m with
  | nil => simpa [Sparse.write] using h
  | cons q m ih =>
    obtain ⟨a, y⟩ := q
    unfold Sparse.write at h
    split at h
    · simpa using h
    · split at h
      · rcases List.mem_cons.mp h with h | h <;> simp [h]
      · rcases List.mem_cons.mp h with h | h
        · simp [h]
        · rcases ih h with h | h <;> simp [h]

/-- Every write to a place of the store keeps the canonical form. -/
theorem Sparse_write_wf {bound : Nat} {m : Sparse α} {k : Nat} (x : α) (h : Sparse.wf bound m) (hk : k < bound) :
    Sparse.wf bound (Sparse.write m k x) := by
  refine ⟨?_, fun p hp => ?_⟩
  · have hp := h.1
    clear h
    induction m with
    | nil => simp [Sparse.write]
    | cons q m ih =>
      obtain ⟨a, y⟩ := q
      obtain ⟨hq, hm⟩ := List.pairwise_cons.mp hp
      unfold Sparse.write
      split
      · refine List.pairwise_cons.mpr ⟨fun p hpm => ?_, hp⟩
        rcases List.mem_cons.mp hpm with rfl | hpm
        · assumption
        · have := hq p hpm
          simp only at this ⊢
          omega
      · split
        · next hak => subst hak; exact List.pairwise_cons.mpr ⟨hq, hm⟩
        · refine List.pairwise_cons.mpr ⟨fun p hpm => ?_, ih hm⟩
          rcases Sparse_mem_write hpm with rfl | hpm
          · simp only
            omega
          · exact hq p hpm
  · rcases Sparse_mem_write hp with rfl | hp
    · exact hk
    · exact h.2 p hp

/-- Equal contents are equal data: two stores in canonical form that hold the same at every place are the same
list. -/
theorem Sparse_ext {bound : Nat} {m n : Sparse α} (hm : Sparse.wf bound m) (hn : Sparse.wf bound n)
    (h : ∀ k, Sparse.read m k = Sparse.read n k) : m = n := by
  replace hm := hm.1
  replace hn := hn.1
  induction m generalizing n with
  | nil =>
    cases n with
    | nil => rfl
    | cons q n => obtain ⟨b, y⟩ := q; simpa [Sparse_read_cons] using h b
  | cons p m ih =>
    cases n with
    | nil => obtain ⟨a, x⟩ := p; simpa [Sparse_read_cons] using h a
    | cons q n =>
      obtain ⟨a, x⟩ := p
      obtain ⟨b, y⟩ := q
      obtain ⟨hpm, hm'⟩ := List.pairwise_cons.mp hm
      obtain ⟨hqn, hn'⟩ := List.pairwise_cons.mp hn
      have hma : Sparse.read m a = none := Sparse_read_none m a fun p hp => hpm p hp
      have hnb : Sparse.read n b = none := Sparse_read_none n b fun q hq => hqn q hq
      have hab : a = b := by
        rcases Nat.lt_trichotomy a b with hlt | heq | hlt
        · have hna : Sparse.read n a = none :=
            Sparse_read_none n a fun q hq => by have := hqn q hq; simp only at this; omega
          have := h a
          simp [Sparse_read_cons, hna, Nat.ne_of_gt hlt] at this
        · exact heq
        · have hmb : Sparse.read m b = none :=
            Sparse_read_none m b fun p hp => by have := hpm p hp; simp only at this; omega
          have := h b
          simp [Sparse_read_cons, hmb, Nat.ne_of_gt hlt] at this
      subst hab
      have hxy := h a
      simp only [Sparse_read_cons, if_true, Option.some.injEq] at hxy
      subst hxy
      rw [ih (fun k => ?_) hm' hn']
      by_cases hk : a = k
      · subst hk; rw [hma, hnb]
      · simpa [Sparse_read_cons, hk] using h k

/-! ### Memory and the stack store -/

@[simp] theorem Memory_read_nil (a : Nat) : Memory.read [] a = none := rfl

theorem Memory_read_write (m : Memory) (a c : Nat) (b : Byte) :
    (m.write a b).read c = if a = c then some b else m.read c := by
  simp only [Memory.read, Memory.write, Sparse_read_write]
  split <;> rfl

@[simp] theorem Memory_read_write_same (m : Memory) (a : Nat) (b : Byte) : (m.write a b).read a = some b := by
  simp [Memory_read_write]

theorem Memory_read_write_other (m : Memory) (a c : Nat) (b : Byte) (h : a ≠ c) :
    (m.write a b).read c = m.read c := by
  simp [Memory_read_write, h]

theorem Memory_write_wf {m : Memory} {a : Nat} (b : Byte) (h : m.wf) (ha : a < Config.memSize) :
    (m.write a b).wf := Sparse_write_wf b h ha

/-- An address with no cell reads as absent, in a memory in canonical form. -/
theorem Memory_read_none {m : Memory} {a : Nat} (h : m.wf) (ha : Config.memSize ≤ a) : m.read a = none := by
  have : Sparse.read m a = none := by
    have h2 := h.2
    clear h
    induction m with
    | nil => rfl
    | cons p m ih =>
      obtain ⟨c, x⟩ := p
      have : c < Config.memSize := h2 (c, x) (by simp)
      rw [Sparse_read_cons, if_neg (by omega), ih fun q hq => h2 q (by simp [hq])]
  simp [Memory.read, this]

theorem Stack_read_write (m : Stack) (k j : Byte) (w : Word) :
    (m.write k w).read j = if k = j then some w else m.read j := by
  simp [Stack.read, Stack.write, Sparse_read_write, BitVec.toNat_inj]

@[simp] theorem Stack_read_write_same (m : Stack) (k : Byte) (w : Word) : (m.write k w).read k = some w := by
  simp [Stack_read_write]

theorem Stack_write_wf {m : Stack} (k : Byte) (w : Word) (h : m.wf) : (m.write k w).wf :=
  Sparse_write_wf w h k.isLt

end Sys2Proof.Machine
end

