-- ==== Sys2Proof/Laws/Step.lean ====
section
/-! SUPPORT. What a fetch, an instruction and a Step can do, said once. -/

namespace Sys2Proof.Machine

/-! ### The fetch -/

/-- A fetch where both addresses are cells (43_cycle R181). -/
theorem fetch_of_lt (s : State) (h : s.pc.toNat < 0xFFF) :
    s.fetch = assemble (s.mem.read s.pc.toNat) (s.mem.read (s.pc.toNat + 1)) := by
  have hl : readLength s.pc.toNat Config.instrBytes = 2 := by
    simp only [readLength, Config.memSize, Config.instrBytes]
    split <;> omega
  have h2 : List.range 2 = [0, 1] := rfl
  simp [State.fetch, State.memRead, hl, h2, fetchedByte]

/-- A fetch at the last cell obtains at most one byte (20_memory R66). -/
theorem fetch_of_eq (s : State) (h : s.pc.toNat = 0xFFF) : s.fetch = assemble (s.mem.read 0xFFF) none := by
  have h1 : List.range (readLength 0xFFF Config.instrBytes) = [0] := rfl
  simp [State.fetch, State.memRead, h1, fetchedByte, h]

/-- A fetch past the memory obtains no byte (20_memory R66, 10_state R29). -/
theorem fetch_of_ge (s : State) (h : 0x1000 ≤ s.pc.toNat) : s.fetch = .absent := by
  have hl : readLength s.pc.toNat Config.instrBytes = 0 := by simp [readLength, h]
  simp [State.fetch, State.memRead, hl, fetchedByte, assemble]

/-- A fetch that gives a word had both bytes, both of them cells. -/
theorem fetch_word {s : State} {w : Word} (h : s.fetch = .word w) :
    s.pc.toNat < 0xFFF ∧ s.mem.read s.pc.toNat = some (highByte w) ∧
      s.mem.read (s.pc.toNat + 1) = some (lowByte w) := by
  rcases Nat.lt_trichotomy s.pc.toNat 0xFFF with hlt | heq | hgt
  · rw [fetch_of_lt s hlt] at h
    cases h1 : s.mem.read s.pc.toNat <;> cases h2 : s.mem.read (s.pc.toNat + 1) <;> rw [h1, h2] at h <;> cases h
    simp [hlt]
  · rw [fetch_of_eq s heq] at h
    cases h1 : s.mem.read 0xFFF <;> rw [h1] at h <;> cases h
  · rw [fetch_of_ge s hgt] at h
    cases h

/-- Fetching depends on PC and memory alone. -/
theorem fetch_congr {s t : State} (hp : s.pc = t.pc) (hm : s.mem = t.mem) : s.fetch = t.fetch := by
  simp [State.fetch, State.memRead, hp, hm]

/-! ### The end of an instruction -/

@[simp] theorem retire_ok (s t : State) : retire s (.ok t) = .next t.advance := rfl

@[simp] theorem retire_error (s : State) (f : Fault) : retire s (.error f) = .next (s.takeFault f) := rfl

/-! ### What an instruction can do -/

/-- Everything an instruction can do, when it answers the next state `t`. -/
theorem exec_cases {i : Instr} {s t : State} (h : exec i s = .next t) :
    (i = .cls ∧ t = (handleClear s).advance) ∨
    (i = .ret ∧ s.top = none ∧ t = s.takeFault .stackUnset) ∨
    (i = .ret ∧ ∃ r, s.top = some r ∧ t = (s.decSp.setPc r.toNat).advance) ∨
    (∃ nnn, i = .jp nnn ∧ t = (s.jump nnn.toNat).advance) ∨
    (∃ nnn, i = .call nnn ∧ t = ((s.incSp.setTop s.pc).jump nnn.toNat).advance) ∨
    (((∃ x kk, i = .seImm x kk ∨ i = .sneImm x kk) ∨ ∃ x y z, i = .seReg x y z ∨ i = .sneReg x y z) ∧
      (t = s.advance ∨ t = s.advance.advance)) ∨
    ((i ≠ .cls ∧ i ≠ .ret ∧ (∀ n, i ≠ .jp n ∧ i ≠ .call n) ∧ (∀ x kk, i ≠ .seImm x kk ∧ i ≠ .sneImm x kk) ∧
      ∀ x y z, i ≠ .seReg x y z ∧ i ≠ .sneReg x y z) ∧ t = (s.emit (.unimplemented (encode i))).advance) := by
  have skip (c : Bool) : (s.skipIf c).advance = s.advance ∨ (s.skipIf c).advance = s.advance.advance := by
    cases c <;> simp
  cases i
  case cls => cases h; exact .inl ⟨rfl, rfl⟩
  case ret =>
    cases hr : s.top with
    | none =>
      simp only [exec, execRet, handleRet, hr, retire_error, Host.Outcome.next.injEq] at h
      exact .inr (.inl ⟨rfl, rfl, h.symm⟩)
    | some r =>
      simp only [exec, execRet, handleRet, hr, retire_ok, Host.Outcome.next.injEq] at h
      exact .inr (.inr (.inl ⟨rfl, r, rfl, by rw [← h]; simp [State.setPc]⟩))
  case jp => cases h; exact .inr (.inr (.inr (.inl ⟨_, rfl, rfl⟩)))
  case call => cases h; exact .inr (.inr (.inr (.inr (.inl ⟨_, rfl, rfl⟩))))
  case seImm x kk =>
    cases h
    exact .inr (.inr (.inr (.inr (.inr (.inl ⟨by simp, by rw [handleSeImm, skipOnImm_selOf]; exact skip _⟩)))))
  case sneImm x kk =>
    cases h
    exact .inr (.inr (.inr (.inr (.inr (.inl ⟨by simp, by rw [handleSneImm, skipOnImm_selOf]; exact skip _⟩)))))
  case seReg x y z =>
    cases h
    exact .inr (.inr (.inr (.inr (.inr (.inl ⟨by simp, by rw [handleSeReg, skipOnReg_selOf]; exact skip _⟩)))))
  case sneReg x y z =>
    cases h
    exact .inr (.inr (.inr (.inr (.inr (.inl ⟨by simp, by rw [handleSneReg, skipOnReg_selOf]; exact skip _⟩)))))
  all_goals
    cases h
    exact .inr (.inr (.inr (.inr (.inr (.inr ⟨by simp, rfl⟩)))))

/-! ### What a Step can do -/

@[simp] theorem step_latched {s : State} {f : Fault} (h : s.fault = some f) : step s = .fault f := by
  simp [step, h]

theorem step_absent {s : State} (hf : s.fault = none) (h : s.fetch = .absent) : step s = .next s := by
  simp [step, hf, h]

theorem step_half {s : State} (hf : s.fault = none) (h : s.fetch = .half) :
    step s = .next (s.takeFault .fetchPartial) := by
  simp [step, hf, h]

theorem step_word {s : State} {w : Word} (hf : s.fault = none) (h : s.fetch = .word w) :
    step s = exec (decodeWord w) s := by
  simp [step, hf, h]

/-- Everything a Step that answers the next state `t` can have done. -/
theorem step_cases {s t : State} (h : step s = .next t) :
    s.fault = none ∧
      ((s.fetch = .absent ∧ t = s) ∨ (s.fetch = .half ∧ t = s.takeFault .fetchPartial) ∨
        ∃ w, s.fetch = .word w ∧ exec (decodeWord w) s = .next t) := by
  cases hf : s.fault with
  | some f => rw [step_latched hf] at h; cases h
  | none =>
    refine ⟨rfl, ?_⟩
    cases hw : s.fetch with
    | absent => rw [step_absent hf hw] at h; cases h; exact .inl ⟨rfl, rfl⟩
    | half => rw [step_half hf hw] at h; cases h; exact .inr (.inl ⟨rfl, rfl⟩)
    | word w => rw [step_word hf hw] at h; exact .inr (.inr ⟨w, rfl, h⟩)

end Sys2Proof.Machine
end

