-- ==== Sys2Proof/Laws/Invariant.lean ====
section
/-! SUPPORT. Every operation over memory and over the stack store keeps the canonical form, and reset has it. -/

namespace Sys2Proof.Machine

theorem memWrite_mem_wf {s : State} (h : s.mem.wf) (a n : Nat) : (s.memWrite a n).1.mem.wf := by
  rw [State_memWrite_mem]
  split
  · next ha => exact Memory_write_wf _ h (by simp only [Config.writeHi, Config.memSize] at *; omega)
  · exact h

theorem loadAt_mem_wf {s : State} (h : s.mem.wf) (ws : List Word) (a : Nat) : (s.loadAt a ws).mem.wf := by
  induction ws generalizing s a with
  | nil => exact h
  | cons w ws ih => exact ih (memWrite_mem_wf (memWrite_mem_wf h _ _) _ _) _

theorem placeWord_mem_wf {s : State} (h : s.mem.wf) (w : Word) : (placeWord w s).mem.wf := by
  have ha : placeAddr s + 1 < Config.memSize := by
    unfold placeAddr
    simp only [Config.writeHi, Config.loadBase, Config.memSize]
    split <;> omega
  exact Memory_write_wf _ (Memory_write_wf _ h (by omega)) ha

theorem setTop_stk_wf {s : State} (h : s.stk.wf) (w : Word) : (s.setTop w).stk.wf := Stack_write_wf _ w h

theorem reset_wf : State.reset.Wf := by decide

/-- An instruction keeps memory, and keeps the stack store in canonical form. -/
theorem exec_wf {i : Instr} {s t : State} (hw : s.Wf) (h : exec i s = .next t) : t.Wf := by
  obtain ⟨hm, hs⟩ := hw
  rcases exec_cases h with ⟨-, rfl⟩ | ⟨-, -, rfl⟩ | ⟨-, r, -, rfl⟩ | ⟨n, -, rfl⟩ | ⟨n, -, rfl⟩ | ⟨-, rfl | rfl⟩ | ⟨-, rfl⟩
  case inr.inr.inr.inr.inl => exact ⟨hm, Stack_write_wf _ _ hs⟩
  all_goals exact ⟨hm, hs⟩

end Sys2Proof.Machine
end

