-- ==== Sys2Proof/Laws/PerInstr.lean ====
section
/-! SUPPORT. The statements about instructions as syntax that are made one constructor at a time. -/

namespace Sys2Proof.Laws.RoundTrip

/-- Decoding the word of a well-formed instruction gives it back (30_encoding R95 to R99). -/
def Statement (i : Instr) : Prop := i.WellFormed → decodeWord (encode i) = i

theorem cls : Statement .cls := fun _ => rfl

theorem ret : Statement .ret := fun _ => rfl

theorem unimpl0 (u : Word12) : Statement (.unimpl0 u) := by
  intro h
  have hw : (encode (.unimpl0 u)).toNat = u.toNat :=
    (toNat_digit_word12 0x0#4 u).trans (by simp)
  have hu := u.isLt
  have ne (c : Word12) (hc : u ≠ c) : encode (.unimpl0 u) ≠ c.setWidth 16 := fun e => hc (by
    apply BitVec.eq_of_toNat_eq
    have := congrArg BitVec.toNat e
    have hc := c.isLt
    rw [hw, BitVec.toNat_setWidth, Nat.mod_eq_of_lt (by omega)] at this
    exact this)
  simp only [Instr.WellFormed, Instr.wellFormed, Bool.and_eq_true, bne_iff_ne, ne_eq] at h
  rw [decodeWord_of_op_zero (by omega) (ne 0x0E0#12 h.1) (ne 0x0EE#12 h.2)]
  congr 1
  apply BitVec.eq_of_toNat_eq
  rw [toNat_fieldNnn, hw]
  omega

theorem jp (u : Word12) : Statement (.jp u) := by
  intro _
  have hw : (encode (.jp u)).toNat = 1 * 4096 + u.toNat := toNat_digit_word12 0x1#4 u
  have hu := u.isLt
  rw [decodeWord_of_op 1 (by omega) (by decide)]
  exact congrArg Instr.jp (BitVec.eq_of_toNat_eq (by rw [toNat_fieldNnn, hw]; omega))

theorem call (u : Word12) : Statement (.call u) := by
  intro _
  have hw : (encode (.call u)).toNat = 2 * 4096 + u.toNat := toNat_digit_word12 0x2#4 u
  have hu := u.isLt
  rw [decodeWord_of_op 2 (by omega) (by decide)]
  exact congrArg Instr.call (BitVec.eq_of_toNat_eq (by rw [toNat_fieldNnn, hw]; omega))

theorem unimpl6 (u : Word12) : Statement (.unimpl6 u) := by
  intro _
  have hw : (encode (.unimpl6 u)).toNat = 6 * 4096 + u.toNat := toNat_digit_word12 0x6#4 u
  have hu := u.isLt
  rw [decodeWord_of_op 6 (by omega) (by decide)]
  exact congrArg Instr.unimpl6 (BitVec.eq_of_toNat_eq (by rw [toNat_fieldNnn, hw]; omega))

theorem unimpl7 (u : Word12) : Statement (.unimpl7 u) := by
  intro _
  have hw : (encode (.unimpl7 u)).toNat = 7 * 4096 + u.toNat := toNat_digit_word12 0x7#4 u
  have hu := u.isLt
  rw [decodeWord_of_op 7 (by omega) (by decide)]
  exact congrArg Instr.unimpl7 (BitVec.eq_of_toNat_eq (by rw [toNat_fieldNnn, hw]; omega))

theorem unimpl8 (u : Word12) : Statement (.unimpl8 u) := by
  intro _
  have hw : (encode (.unimpl8 u)).toNat = 8 * 4096 + u.toNat := toNat_digit_word12 0x8#4 u
  have hu := u.isLt
  rw [decodeWord_of_op 8 (by omega) (by decide)]
  exact congrArg Instr.unimpl8 (BitVec.eq_of_toNat_eq (by rw [toNat_fieldNnn, hw]; omega))

theorem unimplA (u : Word12) : Statement (.unimplA u) := by
  intro _
  have hw : (encode (.unimplA u)).toNat = 10 * 4096 + u.toNat := toNat_digit_word12 0xA#4 u
  have hu := u.isLt
  rw [decodeWord_of_op 10 (by omega) (by decide)]
  exact congrArg Instr.unimplA (BitVec.eq_of_toNat_eq (by rw [toNat_fieldNnn, hw]; omega))

theorem unimplB (u : Word12) : Statement (.unimplB u) := by
  intro _
  have hw : (encode (.unimplB u)).toNat = 11 * 4096 + u.toNat := toNat_digit_word12 0xB#4 u
  have hu := u.isLt
  rw [decodeWord_of_op 11 (by omega) (by decide)]
  exact congrArg Instr.unimplB (BitVec.eq_of_toNat_eq (by rw [toNat_fieldNnn, hw]; omega))

theorem unimplC (u : Word12) : Statement (.unimplC u) := by
  intro _
  have hw : (encode (.unimplC u)).toNat = 12 * 4096 + u.toNat := toNat_digit_word12 0xC#4 u
  have hu := u.isLt
  rw [decodeWord_of_op 12 (by omega) (by decide)]
  exact congrArg Instr.unimplC (BitVec.eq_of_toNat_eq (by rw [toNat_fieldNnn, hw]; omega))

theorem unimplD (u : Word12) : Statement (.unimplD u) := by
  intro _
  have hw : (encode (.unimplD u)).toNat = 13 * 4096 + u.toNat := toNat_digit_word12 0xD#4 u
  have hu := u.isLt
  rw [decodeWord_of_op 13 (by omega) (by decide)]
  exact congrArg Instr.unimplD (BitVec.eq_of_toNat_eq (by rw [toNat_fieldNnn, hw]; omega))

theorem unimplE (u : Word12) : Statement (.unimplE u) := by
  intro _
  have hw : (encode (.unimplE u)).toNat = 14 * 4096 + u.toNat := toNat_digit_word12 0xE#4 u
  have hu := u.isLt
  rw [decodeWord_of_op 14 (by omega) (by decide)]
  exact congrArg Instr.unimplE (BitVec.eq_of_toNat_eq (by rw [toNat_fieldNnn, hw]; omega))

theorem unimplF (u : Word12) : Statement (.unimplF u) := by
  intro _
  have hw : (encode (.unimplF u)).toNat = 15 * 4096 + u.toNat := toNat_digit_word12 0xF#4 u
  have hu := u.isLt
  rw [decodeWord_of_op 15 (by omega) (by decide)]
  exact congrArg Instr.unimplF (BitVec.eq_of_toNat_eq (by rw [toNat_fieldNnn, hw]; omega))

theorem seImm (x : VReg) (kk : Byte) : Statement (.seImm x kk) := by
  intro _
  have hw : (encode (.seImm x kk)).toNat = (3 * 16 + x.val) * 256 + kk.toNat :=
    toNat_formatI 0x3#4 x kk
  have hx := x.isLt
  have hk := kk.isLt
  rw [decodeWord_of_op 3 (by omega) (by decide)]
  exact congr (congrArg Instr.seImm (Fin.ext (by rw [val_fieldX, hw]; omega)))
    (BitVec.eq_of_toNat_eq (by rw [toNat_fieldKk, hw]; omega))

theorem sneImm (x : VReg) (kk : Byte) : Statement (.sneImm x kk) := by
  intro _
  have hw : (encode (.sneImm x kk)).toNat = (4 * 16 + x.val) * 256 + kk.toNat :=
    toNat_formatI 0x4#4 x kk
  have hx := x.isLt
  have hk := kk.isLt
  rw [decodeWord_of_op 4 (by omega) (by decide)]
  exact congr (congrArg Instr.sneImm (Fin.ext (by rw [val_fieldX, hw]; omega)))
    (BitVec.eq_of_toNat_eq (by rw [toNat_fieldKk, hw]; omega))

theorem seReg (x y : VReg) (z : Digit) : Statement (.seReg x y z) := by
  intro _
  have hw : (encode (.seReg x y z)).toNat = ((5 * 16 + x.val) * 16 + y.val) * 16 + z.toNat :=
    toNat_formatR 0x5#4 x y z
  have hx := x.isLt
  have hy := y.isLt
  have hz := z.isLt
  rw [decodeWord_of_op 5 (by omega) (by decide)]
  exact congr (congr (congrArg Instr.seReg (Fin.ext (by rw [val_fieldX, hw]; omega)))
    (Fin.ext (by rw [val_fieldY, hw]; omega))) (BitVec.eq_of_toNat_eq (by rw [toNat_fieldZ, hw]; omega))

theorem sneReg (x y : VReg) (z : Digit) : Statement (.sneReg x y z) := by
  intro _
  have hw : (encode (.sneReg x y z)).toNat = ((9 * 16 + x.val) * 16 + y.val) * 16 + z.toNat :=
    toNat_formatR 0x9#4 x y z
  have hx := x.isLt
  have hy := y.isLt
  have hz := z.isLt
  rw [decodeWord_of_op 9 (by omega) (by decide)]
  exact congr (congr (congrArg Instr.sneReg (Fin.ext (by rw [val_fieldX, hw]; omega)))
    (Fin.ext (by rw [val_fieldY, hw]; omega))) (BitVec.eq_of_toNat_eq (by rw [toNat_fieldZ, hw]; omega))

end Sys2Proof.Laws.RoundTrip
end

