-- ==== Sys2Proof/Tests/Slice0.lean ====
section
/-! SUPPORT. Tests: the check of well-formedness, words written out from the patterns of 30_encoding section 4, the vectors of
95_test_vectors (named in each comment), and a witness for the hypotheses of each obligation. -/

namespace Sys2Proof.Tests

open Sys2Proof.Machine

/-! ### Helpers -/

/-- The reset machine with `w` at `0x200`, so at PC. -/
def start (w : Word) : State := { State.reset with mem := [(0x200, highByte w), (0x201, lowByte w)] }

/-- The state a Step answers; the same state when it answers none. -/
def after (s : State) : State :=
  match step s with
  | .next t => t
  | .fault _ | .refused _ => s

/-- A Step answers exactly this next state. -/
def stepsTo (s t : State) : Bool :=
  match step s with
  | .next u => decide (u = t)
  | .fault _ | .refused _ => false

/-- A host operation answers exactly this state and result. -/
def answers (o : HostOp) (s t : State) (r : HostResult) : Bool :=
  match hostOp o s with
  | .ok (u, q) => decide (u = t ∧ q = r)
  | .error _ => false

/-- The state a host operation leaves. -/
def leaves (o : HostOp) (s : State) : State :=
  match hostOp o s with
  | .ok (u, _) => u
  | .error _ => s

/-! ### Well-formed terms -/

theorem test_wellFormed_refuses_cls_in_group_0 : ¬ (Instr.unimpl0 0x0E0).WellFormed := by decide
theorem test_wellFormed_refuses_ret_in_group_0 : ¬ (Instr.unimpl0 0x0EE).WellFormed := by decide
theorem test_wellFormed_accepts_neighbours :
    (Instr.unimpl0 0x0DF).WellFormed ∧ (Instr.unimpl0 0x0E1).WellFormed ∧ (Instr.unimpl0 0x0ED).WellFormed ∧
    (Instr.unimpl0 0x0EF).WellFormed := by decide

/-! ### Words written out bit by bit (30_encoding R93, R102; the fields as 30_encoding R92 places them) -/

theorem test_decode_cls : decodeWord 0b0000000011100000 = .cls := by decide
theorem test_decode_ret : decodeWord 0b0000000011101110 = .ret := by decide
theorem test_decode_unimpl0 : decodeWord 0b0000000100100011 = .unimpl0 0x123 := by decide
theorem test_decode_jp : decodeWord 0b0001101010111100 = .jp 0xABC := by decide
theorem test_decode_call : decodeWord 0b0010101010111100 = .call 0xABC := by decide
theorem test_decode_seImm : decodeWord 0b0011101001111111 = .seImm 10 0x7F := by decide
theorem test_decode_sneImm : decodeWord 0b0100111100000000 = .sneImm 15 0x00 := by decide
theorem test_decode_seReg : decodeWord 0b0101000100101111 = .seReg 1 2 0xF := by decide
theorem test_decode_unimpl6 : decodeWord 0b0110101000010010 = .unimpl6 0xA12 := by decide
theorem test_decode_unimpl7 : decodeWord 0b0111000100000001 = .unimpl7 0x101 := by decide
theorem test_decode_unimpl8 : decodeWord 0b1000000100100100 = .unimpl8 0x124 := by decide
theorem test_decode_sneReg : decodeWord 0b1001101010110111 = .sneReg 10 11 7 := by decide
theorem test_decode_unimplA : decodeWord 0b1010001100000000 = .unimplA 0x300 := by decide
theorem test_decode_unimplB : decodeWord 0b1011001100000000 = .unimplB 0x300 := by decide
theorem test_decode_unimplC : decodeWord 0b1100000011111111 = .unimplC 0x0FF := by decide
theorem test_decode_unimplD : decodeWord 0b1101000000010101 = .unimplD 0x015 := by decide
theorem test_decode_unimplE : decodeWord 0b1110000010011110 = .unimplE 0x09E := by decide
theorem test_decode_unimplF : decodeWord 0b1111111111111111 = .unimplF 0xFFF := by decide

/-- 20_memory R68: the byte at the lower address is the word's high byte. -/
theorem test_decode_bytes : decode [0x1A, 0xBC, 0x55] = .ok (.jp 0xABC, [0x55]) := by decide
theorem test_decode_half_a_word : decode [0x1A] = .error .oneByte := by decide

/-- The listings of 95_test_vectors, P1 and P3. -/
theorem test_text :
    (decodeWord 0x1206).text = "JP 0x206" ∧ (decodeWord 0x4105).text = "SNE V1, 0x05" ∧
    (decodeWord 0x9130).text = "SNE V1, V3" ∧ (decodeWord 0x6A12).text = ".word 0x6A12" := by decide +kernel

/-! ### Steps (95_test_vectors, 2.4 to 2.7) -/

/-- The display of vector X1: the cells (0,0) to (7,0) on. -/
def rowOn : State := { start 0x00E0 with disp := State.reset.disp.set 0 0xFF }

/-- X14. -/
theorem test_cls : stepsTo rowOn { start 0x00E0 with pc := 0x202 } = true := by decide +kernel
/-- T1. -/
theorem test_jp : stepsTo (start 0x1300) { start 0x1300 with pc := 0x302 } = true := by decide +kernel
/-- T3. -/
theorem test_jp_past_memory : stepsTo (start 0x1FFE) { start 0x1FFE with pc := 0x1000 } = true := by decide +kernel
/-- T8. -/
theorem test_call :
    stepsTo { State.reset with pc := 0x202, mem := [(0x202, 0x23), (0x203, 0x00)] }
      { State.reset with pc := 0x302, sp := 1, stk := [(1, 0x202)], mem := [(0x202, 0x23), (0x203, 0x00)] } = true := by
  decide +kernel
/-- T9: the stack pointer wraps. -/
theorem test_call_wraps :
    stepsTo { start 0x2300 with sp := 255 } { start 0x2300 with pc := 0x302, sp := 0, stk := [(0, 0x200)] } = true := by
  decide +kernel
/-- T13: the stack pointer wraps the other way, and the slot is kept. -/
theorem test_ret_wraps :
    stepsTo { start 0x00EE with stk := [(0, 0x300)] }
      { start 0x00EE with stk := [(0, 0x300)], pc := 0x302, sp := 255 } = true := by decide +kernel
/-- T12. -/
theorem test_ret_unset : stepsTo (start 0x00EE) { start 0x00EE with fault := some .stackUnset } = true := by
  decide +kernel
/-- K1 and K2. -/
theorem test_seImm :
    (after { start 0x3105 with v := State.reset.v.set 1 5 }).pc = 0x204 ∧
    (after { start 0x3106 with v := State.reset.v.set 1 5 }).pc = 0x202 := by decide +kernel
/-- K5 and K6. -/
theorem test_sneImm :
    (after { start 0x4105 with v := State.reset.v.set 1 5 }).pc = 0x202 ∧
    (after { start 0x4106 with v := State.reset.v.set 1 5 }).pc = 0x204 := by decide +kernel
/-- K8 and K10. -/
theorem test_seReg :
    (after { start 0x5120 with v := (State.reset.v.set 1 5).set 2 6 }).pc = 0x202 ∧
    (after { start 0x512F with v := (State.reset.v.set 1 5).set 2 5 }).pc = 0x204 := by decide +kernel
/-- K11 and K12. -/
theorem test_sneReg :
    (after { start 0x9120 with v := (State.reset.v.set 1 5).set 2 5 }).pc = 0x202 ∧
    (after { start 0x9120 with v := (State.reset.v.set 1 5).set 2 6 }).pc = 0x204 := by decide +kernel
/-- Y9. -/
theorem test_unimpl0 :
    stepsTo (start 0x0000) { start 0x0000 with pc := 0x202, chan := [.unimplemented 0x0000] } = true := by decide +kernel
/-- Y11 and Y12: no load of I, no jump. -/
theorem test_unimpl_A_and_B :
    stepsTo (start 0xA300) { start 0xA300 with pc := 0x202, chan := [.unimplemented 0xA300] } = true ∧
    stepsTo (start 0xB300) { start 0xB300 with pc := 0x202, chan := [.unimplemented 0xB300] } = true := by decide +kernel
/-- X16: no drawing, no write to VF. -/
theorem test_unimplD :
    stepsTo (start 0xD001) { start 0xD001 with pc := 0x202, chan := [.unimplemented 0xD001] } = true := by decide +kernel
/-- The words of the remaining groups in the table of section 2.3. -/
theorem test_unimpl_rest :
    (after (start 0x6A12)).chan = [.unimplemented 0x6A12] ∧ (after (start 0x7101)).chan = [.unimplemented 0x7101] ∧
    (after (start 0x8124)).chan = [.unimplemented 0x8124] ∧ (after (start 0xC0FF)).chan = [.unimplemented 0xC0FF] ∧
    (after (start 0xE09E)).chan = [.unimplemented 0xE09E] ∧ (after (start 0xFFFF)).chan = [.unimplemented 0xFFFF] := by
  decide +kernel
/-- Y1. -/
theorem test_no_more_instructions :
    answers .step State.reset State.reset (.report ⟨.noMoreInstructions, some 0x200⟩) = true := by decide +kernel
/-- Y4. -/
theorem test_fetch_partial :
    answers .step { State.reset with mem := [(0x200, 0)] }
      { State.reset with mem := [(0x200, 0)], fault := some .fetchPartial }
      (.report ⟨.fault .fetchPartial, some 0x200⟩) = true := by decide +kernel
/-- Y6: the latch holds although both bytes are now present. -/
theorem test_latch_holds :
    answers .step { start 0x00E0 with fault := some .fetchPartial }
      { start 0x00E0 with fault := some .fetchPartial } (.report ⟨.fault .fetchPartial, none⟩) = true := by
  decide +kernel
/-- Y13. -/
theorem test_last_word :
    stepsTo { State.reset with pc := 0xFFE, mem := [(0xFFE, 0x00), (0xFFF, 0xE0)] }
      { State.reset with pc := 0x1000, mem := [(0xFFE, 0x00), (0xFFF, 0xE0)] } = true := by decide +kernel
/-- A word placed for the next fetch, where the last cell alone is at PC. -/
theorem test_withFetchWord :
    (State.withFetchWord { State.reset with pc := 0xFFF } 16 0x1300).pc = 0x200 ∧
    (after (State.withFetchWord { State.reset with pc := 0xFFF } 16 0x1300)).pc = 0x302 := by decide +kernel
/-- Y8: PC near the top of its range is not cut to 12 bits. -/
theorem test_fetch_does_not_wrap :
    stepsTo { start 0x00E0 with pc := 0xFFFE } { start 0x00E0 with pc := 0xFFFE } = true := by decide +kernel

/-! ### Host operations (95_test_vectors, 2.1, 2.2, 2.5, 2.6, 2.8) -/

/-- M4 and M13. -/
theorem test_memWrite :
    answers (.memWrite 0x1FF 0x42) State.reset { State.reset with mem := [(0x1FF, 0x42)], chan := [.memRange 0x1FF] }
      (.byte 0x42) = true ∧
    answers (.memWrite 0xFFFF 0x300) State.reset { State.reset with chan := [.memRange 0xFFFF] } (.byte 0) = true := by
  decide +kernel
/-- M8 and M11. -/
theorem test_memRead :
    answers (.memRead 0xFFF 2) { State.reset with mem := [(0xFFF, 1)] } { State.reset with mem := [(0xFFF, 1)] }
      (.bytes [some 1]) = true ∧
    answers (.memRead 0xFFE 2) { State.reset with mem := [(0xFFF, 1)] } { State.reset with mem := [(0xFFF, 1)] }
      (.bytes [none, some 1]) = true := by decide +kernel
/-- G1, G3 and G5. -/
theorem test_regWrite :
    answers (.regWrite 0x03 0x1FF) State.reset { State.reset with v := State.reset.v.set 3 0xFF } .none = true ∧
    answers (.regWrite 0x10 0x12345) State.reset { State.reset with i := 0x2345 } .none = true ∧
    answers (.regWrite 0x12 5) State.reset { State.reset with chan := [.regAccess 0x12] } .none = true := by
  decide +kernel
/-- G7 and G9. -/
theorem test_regRead :
    answers (.regRead 0x13) State.reset { State.reset with chan := [.regAccess 0x13] } (.reg none) = true ∧
    answers (.regRead 0x00) State.reset State.reset (.reg (some 0)) = true := by decide +kernel
/-- L2, L4 and L7. -/
theorem test_ld :
    answers (.exec (.ldImm 0x10 0x1FF)) State.reset { State.reset with i := 0x00FF } .none = true ∧
    answers (.exec (.ldReg 0x01 0x10)) { State.reset with i := 0x2345 }
      { State.reset with i := 0x2345, v := State.reset.v.set 1 0x45 } .none = true ∧
    answers (.exec (.ldReg 0x01 0x12)) State.reset { State.reset with chan := [.regAccess 0x12] } .none = true := by
  decide +kernel
/-- 41_conditional_load R148, 60_exceptions R260: two invalid operands, each reported once, the first operand first. -/
theorem test_ld_two_invalid :
    answers (.exec (.ldReg 0x11 0x12)) State.reset { State.reset with chan := [.regAccess 0x11, .regAccess 0x12] } .none =
      true := by decide +kernel
/-- X2 and X3: clipping at the right edge and at the bottom. -/
theorem test_draw_clips :
    answers (.exec (.draw [0xFF] 60 0)) State.reset
      { State.reset with disp := State.reset.disp.set 0 0xF000000000000000 } (.bool false) = true ∧
    answers (.exec (.draw [0x80, 0x80, 0x80] 0 30)) State.reset
      { State.reset with disp := (State.reset.disp.set 30 1).set 31 1 } (.bool false) = true := by decide +kernel
/-- X9 and X11: a collision, and a clipped bit that meets nothing. -/
theorem test_draw_collides :
    answers (.exec (.draw [0xC0] 0 0)) { State.reset with disp := State.reset.disp.set 0 2 }
      { State.reset with disp := State.reset.disp.set 0 3 } (.bool true) = true ∧
    answers (.exec (.draw [0x01] 60 0)) { State.reset with disp := State.reset.disp.set 0 8 }
      { State.reset with disp := State.reset.disp.set 0 8 } (.bool false) = true := by decide +kernel
/-- H2, and the same words as text, in either case. -/
theorem test_load :
    answers (.load [0x1206, 0xABCD]) State.reset
      { State.reset with mem := [(0x200, 0x12), (0x201, 0x06), (0x202, 0xAB), (0x203, 0xCD)] } .none = true ∧
    hostOp (.loadText [['1', '2', '0', '6'], ['a', 'B', 'c', 'D']]) State.reset =
      hostOp (.load [0x1206, 0xABCD]) State.reset := by decide +kernel
/-- 93_implementation_defined U5. -/
theorem test_loadText_refuses :
    hostOp (.loadText [['0', '0', 'E', '0'], ['0', 'E', '0']]) State.reset = .error .malformedProgramText ∧
    hostOp (.loadText [['0', '0', 'G', '0']]) State.reset = .error .malformedProgramText := by decide +kernel

/-! ### Witnesses: for each obligation with hypotheses, states and operands that meet them -/

theorem witness_DecodeOfEncodeIsTheInstruction :
    (Instr.seReg 15 15 0xF).WellFormed ∧ (Instr.unimpl0 0xFFF).WellFormed := by decide

theorem witness_EveryWordDecodesToItsOneInstruction :
    (Instr.unimpl0 0x0E1).WellFormed ∧ encode (.unimpl0 0x0E1) = 0x00E1 := by decide

/-- Each leading digit, at the two ends of its range and beside the two exact words. -/
theorem witness_OpcodeMapRowsDecode :
    ([0x0000, 0x00DF, 0x00E1, 0x00ED, 0x00EF, 0x0FFF].all fun w : Word =>
      w ≠ 0x00E0 ∧ w ≠ 0x00EE ∧ w &&& 0xF000 = 0x0000) = true ∧
    ([0x1000, 0x2000, 0x3000, 0x4000, 0x5000, 0x6000, 0x7000, 0x8000, 0x9000, 0xA000, 0xB000, 0xC000, 0xD000, 0xE000,
      0xF000].all fun d : Word => [d, d ||| 0xFFF].all fun w => w ≠ 0x00E0 ∧ w ≠ 0x00EE ∧ w &&& 0xF000 = d) = true := by
  decide

theorem witness_DigitFourOfRegisterFormsIsIgnored :
    ((0x5120#16).toNat / 4096 = 5 ∧ (0x5120#16).toNat / 16 = (0x512F#16).toNat / 16) ∧
    ((0x9AB7#16).toNat / 4096 = 9 ∧ (0x9AB7#16).toNat / 16 = (0x9AB0#16).toNat / 16) := by decide

/-- At PC = 0x200, and at the last address that a word can be fetched from. -/
theorem witness_StepRunsTheDecodedInstruction :
    (∃ s : State, s.fault = none ∧ (Instr.jp 0x300).WellFormed ∧ s.pc.toNat < 0xFFF ∧
      s.mem.read s.pc.toNat = some (highByte (encode (.jp 0x300))) ∧
      s.mem.read (s.pc.toNat + 1) = some (lowByte (encode (.jp 0x300)))) ∧
    (∃ s : State, s.fault = none ∧ s.pc.toNat = 0xFFE ∧
      s.mem.read s.pc.toNat = some (highByte (encode .cls)) ∧
      s.mem.read (s.pc.toNat + 1) = some (lowByte (encode .cls))) :=
  ⟨⟨start 0x1300, by decide⟩, ⟨{ State.reset with pc := 0xFFE, mem := [(0xFFE, 0x00), (0xFFF, 0xE0)] }, by decide⟩⟩

theorem witness_PlacedWordIsTheNextInstruction :
    (State.reset.fault = none ∧ State.reset.pc.toNat < 0xFFF) ∧
    ∃ s : State, s.fault = none ∧ s.pc.toNat = 0xFFE := ⟨by decide, { State.reset with pc := 0xFFE }, by decide⟩

/-- RET with a set slot, a Step that ends with no more instructions, one that takes a fault, and one that finds it latched. -/
theorem witness_UniformAdvanceFollowsTheHandler :
    State.top { start 0x00EE with stk := [(0, 0x300)] } ≠ none ∧
    (∀ s ∈ [State.reset, start 0x00EE, { State.reset with fault := some .fetchPartial }],
      ∃ t r, hostOp .step s = .ok (t, .report r) ∧ r.outcome ≠ .ok) := by
  refine ⟨by decide, fun s hs => ?_⟩
  fin_cases hs <;> exact ⟨_, _, rfl, by decide⟩

/-- The three cases at their boundaries: 0x1000 and 0xFFFF, 0xFFF with its cell absent, 0xFFE with both absent. -/
theorem witness_NoMoreInstructionsExactlyWhenBothBytesAbsent :
    ([0x1000, 0xFFFF, 0xFFF, 0xFFE, 0x000].all fun p : Word =>
      stepsTo { State.reset with pc := p } { State.reset with pc := p } = true ∧
      (stepReport { State.reset with pc := p } { State.reset with pc := p }).outcome = .noMoreInstructions ∧
      (0x1000 ≤ p.toNat ∨ (p.toNat = 0xFFF ∧ State.reset.mem.read 0xFFF = none) ∨
        (p.toNat ≤ 0xFFE ∧ State.reset.mem.read p.toNat = none ∧ State.reset.mem.read (p.toNat + 1) = none))) = true := by
  decide +kernel

/-- An ended machine, and a memory with which it goes on. -/
theorem witness_NoMoreInstructionsIsNotLatched :
    State.reset.Ended ∧
    State.fetch { State.reset with mem := [(0x200, 0x00), (0x201, 0xE0)], pc := 0x200 } = .word 0x00E0 :=
  ⟨⟨rfl, by decide⟩, by decide⟩

/-- The last cell alone; the first byte alone; the second byte alone, at the bottom and the top of the range. -/
theorem witness_PartialFetchTakesTheFault :
    (∃ s : State, s.fault = none ∧ s.pc.toNat = 0xFFF ∧ s.mem.read 0xFFF ≠ none) ∧
    (∀ c ∈ [(0x000#16, 0x000), (0x000#16, 0x001), (0xFFE#16, 0xFFE), (0xFFE#16, 0xFFF)],
      ∃ s : State, s.fault = none ∧ s.mem = [(c.2, 0)] ∧ s.pc = c.1 ∧ s.pc.toNat < 0xFFF ∧
        (s.mem.read s.pc.toNat).isSome ≠ (s.mem.read (s.pc.toNat + 1)).isSome) := by
  refine ⟨⟨{ State.reset with pc := 0xFFF, mem := [(0xFFF, 0)] }, by decide⟩, fun c hc => ?_⟩
  refine ⟨{ State.reset with pc := c.1, mem := [(c.2, 0)] }, rfl, rfl, rfl, ?_⟩
  revert c; decide

theorem witness_LatchedFaultStopsEveryStep :
    State.fault { State.reset with fault := some .stackUnset } = some .stackUnset ∧
    step { State.reset with fault := some .fetchPartial } = .fault .fetchPartial := ⟨rfl, rfl⟩

/-- A Step that executes, one that raises each fault, from a machine that is not faulted. -/
theorem witness_FaultsArePrecise :
    (stepsTo (start 0x1300) { start 0x1300 with pc := 0x302 } = true ∧
      (stepReport (start 0x1300) { start 0x1300 with pc := 0x302 }).outcome = .ok) ∧
    stepsTo (start 0x00EE) { start 0x00EE with fault := some .stackUnset } = true ∧
    (State.fetch { State.reset with mem := [(0x200, 0)] } = .half ∧
      stepsTo { State.reset with mem := [(0x200, 0)] }
        { State.reset with mem := [(0x200, 0)], fault := some .fetchPartial } = true) := by decide +kernel

theorem witness_ClsTurnsEveryCellOff : ∀ c r, State.reset.disp.isOn c r = false :=
  fun c r => Grid_isOn_allOff c r

theorem witness_RetReturnsTwoPastTheSlot :
    ∃ s : State, s.stk.read s.sp = some 0x300 := ⟨{ State.reset with stk := [(0, 0x300)] }, by decide⟩

theorem witness_RetOnUnsetSlotTakesTheFault : State.reset.stk.read State.reset.sp = none := by decide

/-- The self-loop, the two targets whose landing names no cell, and the one that lands on the last cell. -/
theorem witness_JpLandsTwoPastItsTarget :
    State.reset.pc.toNat = (0x1FE#12).toNat + 2 ∧ 0xFFE ≤ (0xFFE#12).toNat ∧ 0xFFE ≤ (0xFFF#12).toNat ∧
    (0xFFD#12).toNat = 0xFFD := by decide

/-- The machine before the call number `k` of a chain of nested calls. -/
def callChain : Nat → State
  | 0 => State.reset
  | k + 1 => (handleCall 0x1FE (callChain k)).advance

/-- A call at SP = 255, and a chain of 257 nested calls. -/
theorem witness_CallStoresItsOwnAddress :
    State.sp { State.reset with sp := 255 } = 255 ∧
    ∃ a b : Nat → State, a 0 = State.reset ∧ (∀ k ≤ 256, exec (.call 0x1FE) (a k) = .next (b k)) ∧
      ∀ k < 256, (a (k + 1)).sp = (b k).sp :=
  ⟨rfl, callChain, fun k => callChain (k + 1), rfl, fun _ _ => rfl, fun _ _ => rfl⟩

/-- A CALL, and the machine right after it. -/
theorem witness_CallThenReturnContinuesAfterTheCall :
    ∃ t u : State, exec (.call 0x300) State.reset = .next t ∧ u.sp = t.sp ∧ u.stk.read u.sp = t.stk.read t.sp ∧
      u.pc ≠ t.pc :=
  ⟨{ State.reset with pc := 0x302, sp := 1, stk := [(1, 0x200)] },
    { State.reset with pc := 0x400, sp := 1, stk := [(1, 0x200)] }, rfl, by decide, by decide, by decide⟩

theorem witness_UnimplementedWordsOnlyReport : (0x0E1#12) ≠ 0x0E0 ∧ (0x0E1#12) ≠ 0x0EE := by decide

/-- One instruction for each exception to the frame, and one that is none of them. -/
theorem witness_EveryInstructionKeepsItsFrame :
    (∃ t, exec .cls State.reset = .next t) ∧ (∃ t, exec .ret State.reset = .next t) ∧
    (∃ t, exec (.call 0) State.reset = .next t) ∧
    (∃ t, exec (.unimplF 0) State.reset = .next t ∧ Instr.unimplF 0 ≠ .cls ∧ Instr.unimplF 0 ≠ .ret ∧
      ∀ n, Instr.unimplF 0 ≠ .call n) ∧
    (0 : Byte) ≠ State.reset.sp + 1 :=
  ⟨⟨_, rfl⟩, ⟨_, rfl⟩, ⟨_, rfl⟩, ⟨_, rfl, by decide, by decide, fun _ h => by cases h⟩, by decide⟩

/-- Two Steps that execute: CLS and then a jump. -/
def twoWords : State := { State.reset with mem := [(0x200, 0x00), (0x201, 0xE0), (0x202, 0x13), (0x203, 0x00)] }

theorem witness_RunsKeepRegistersAndMemory : Host.Core.run core 2 twoWords = .next { twoWords with pc := 0x302 } := rfl

theorem witness_RunsOnlyClearTheDisplay :
    Host.Core.run core 2 { twoWords with disp := rowOn.disp } = .next { twoWords with pc := 0x302 } := rfl

theorem witness_StepEmitsAtMostOneUnimplemented :
    step (start 0x8124) = .next { start 0x8124 with pc := 0x202, chan := [.unimplemented 0x8124] } := rfl

theorem witness_StepsWriteSlotsOnlyByCall :
    ∃ t, step (start 0x2300) = .next t ∧ t.stk.read 1 ≠ (start 0x2300).stk.read 1 :=
  ⟨{ start 0x2300 with pc := 0x302, sp := 1, stk := [(1, 0x200)] }, rfl, by decide⟩

/-- A CALL, and a RET through a slot that is set. -/
theorem witness_StepsMoveSpByOneOrNot :
    (∃ t, step (start 0x2300) = .next t ∧ t.sp ≠ (start 0x2300).sp) ∧
    (∃ t, step { start 0x00EE with stk := [(0, 0x300)] } = .next t ∧ t.sp ≠ 0) :=
  ⟨⟨{ start 0x2300 with pc := 0x302, sp := 1, stk := [(1, 0x200)] }, rfl, by decide⟩,
    ⟨{ start 0x00EE with pc := 0x302, sp := 255, stk := [(0, 0x300)] }, rfl, by decide⟩⟩

/-- A word of each kind: a jump, a call, RET, a skip, and one of the rest. -/
theorem witness_StepMovesPcAsTheWordSays :
    ([0x1FFF, 0x2000, 0x3000, 0x4FFF, 0x5000, 0x9FFF, 0x0000, 0xFFFF, 0x00E0, 0x6000].all fun w : Word =>
      (start w).fault = none ∧ (start w).fetch = .word w ∧ stepsTo (start w) (after (start w)) = true ∧
      (after (start w)).fault = none) = true ∧
    (State.fetch { start 0x00EE with stk := [(0, 0x300)] } = .word 0x00EE ∧
      stepsTo { start 0x00EE with stk := [(0, 0x300)] }
        { start 0x00EE with stk := [(0, 0x300)], pc := 0x302, sp := 255 } = true) := by decide +kernel

/-- A state with the invariant whose Step raises a fault, and one whose Step writes a slot. -/
theorem witness_EveryStepKeepsTheInvariant :
    ((start 0x00EE).Inv ∧ step (start 0x00EE) = .next { start 0x00EE with fault := some .stackUnset }) ∧
    ((start 0x2300).Inv ∧ ∃ t, step (start 0x2300) = .next t) :=
  ⟨⟨by decide, rfl⟩, by decide, _, rfl⟩

/-- A write that changes a cell, and one that adds one below it. -/
theorem witness_EveryHostOperationKeepsTheStoresCanonical :
    ∀ o ∈ [HostOp.memWrite 0x201 0x55, .memWrite 0x1FF 0x55, .load [0x1206, 0xABCD], .exec (.call 0), .step, .reset],
      (start 0x00E0).Wf ∧ ∃ r, hostOp o (start 0x00E0) = .ok (leaves o (start 0x00E0), r) := by
  intro o ho
  refine ⟨by decide, ?_⟩
  fin_cases ho <;> exact ⟨_, rfl⟩

/-- Two histories that leave the same contents: the cells of a word written in either order. -/
theorem witness_ReachableStatesAreDeterminedByTheirContents :
    Reaches State.reset { State.reset with mem := [(0x200, 1), (0x201, 2)] } ∧
    leaves (.memWrite 0x200 1) (leaves (.memWrite 0x201 2) State.reset) =
      leaves (.memWrite 0x201 2) (leaves (.memWrite 0x200 1) State.reset) :=
  ⟨.op (o := .memWrite 0x200 1) (r := .byte 1)
    (.op (o := .memWrite 0x201 2) (r := .byte 2) (.refl _) rfl) rfl, rfl⟩

/-- Memories that agree at PC and PC + 1 only. -/
theorem witness_StepReadsOnlyTheTwoBytesAtPc :
    Memory.read [(0x000, 9), (0x200, 0), (0x201, 0xE0)] (start 0x00E0).pc.toNat =
      (start 0x00E0).mem.read (start 0x00E0).pc.toNat ∧
    Memory.read [(0x000, 9), (0x200, 0), (0x201, 0xE0)] ((start 0x00E0).pc.toNat + 1) =
      (start 0x00E0).mem.read ((start 0x00E0).pc.toNat + 1) := by decide

/-- A latched machine with a populated cell and a set slot, and an operation on it. -/
theorem witness_OnlyResetForgets :
    ∃ s t r, hostOp (.memWrite 0x200 7) s = .ok (t, r) ∧ s.fault ≠ none ∧ s.mem.read 0x200 ≠ none ∧
      s.stk.read 3 ≠ none :=
  ⟨{ start 0x00E0 with fault := some .fetchPartial, stk := [(3, 9)] }, _, _, rfl, by decide, by decide, by decide⟩

/-- A cell that goes off, in each of the three ways. -/
theorem witness_OnlyClearTurnsCellsOff :
    ∀ o ∈ [HostOp.reset, .exec .clear, .step],
      (∃ r, hostOp o rowOn = .ok (leaves o rowOn, r)) ∧ rowOn.disp.isOn 7 0 = true ∧
      (leaves o rowOn).disp.isOn 7 0 = false := by
  intro o ho
  refine ⟨?_, ?_⟩
  · fin_cases ho <;> exact ⟨_, rfl⟩
  · revert o; decide +kernel

/-- Select codes at the boundaries of the classes; the same for the statements on reads and on LD through Exec. -/
theorem witness_RegWriteBySelectCode :
    (0x0F#8).toNat < 16 ∧ (0x10#8).toNat = 0x10 ∧ 0x11 ≤ (0x11#8).toNat ∧ 0x11 ≤ (0x13#8).toNat ∧
    0x11 ≤ (0xFF#8).toNat := by decide

theorem witness_GeneralRegisterReadsWhatWasWritten : (0 : VReg) ≠ 15 := by decide

theorem witness_RegReadBySelectCode :
    (0x00#8).toNat < 16 ∧ (0x0F#8).toNat < 16 ∧ (0x10#8).toNat = 0x10 ∧ 0x11 ≤ (0x12#8).toNat := by decide

theorem witness_MemReadGivesTheInRangePrefix :
    State.memRead { State.reset with mem := [(0xFFF, 1)] } 0xFFF 2 = [some 1] ∧ 0 < [some (1 : Byte)].length := by decide

/-- A Load one word too long: its last word that has cells, its first that has none, and an address past the end. -/
theorem witness_LoadPlacesWordsFromTheLoadBase :
    (List.replicate 1793 (0xBEEF : Word))[1791]? = some 0xBEEF ∧ 0x200 + 2 * 1791 ≤ 0xFFF ∧
    ¬ 0x200 + 2 * 1792 ≤ 0xFFF ∧ 0x1FF < 0x200 ∧ 0x204 ≥ 0x200 + 2 * [(0x1206 : Word), 0xABCD].length := by
  refine ⟨by rw [List.getElem?_replicate, if_pos (by omega)], by decide, by decide, by decide, by decide⟩

theorem witness_MalformedProgramTextIsRefused :
    (∃ cs ∈ [['0', '0', 'E', '0'], ['0', 'E', '0']], ¬ (cs.length = 4 ∧ ∀ c ∈ cs, IsHexDigit c)) ∧
    (∃ cs ∈ [['0', '0', 'G', '0']], ¬ (cs.length = 4 ∧ ∀ c ∈ cs, IsHexDigit c)) ∧
    (∀ cs ∈ [['0', '9', 'A', 'F'], ['a', 'f', '1', '8']], cs.length = 4 ∧ ∀ c ∈ cs, IsHexDigit c) ∧
    List.Forall₂ IsWordText [['0', '9', 'A', 'F'], ['a', 'f', '1', '8']] [0x09AF, 0xAF18] := by
  refine ⟨by simp [IsHexDigit], by simp [IsHexDigit], by simp [IsHexDigit], ?_⟩
  exact .cons (by unfold IsWordText; decide) (.cons (by unfold IsWordText; decide) .nil)

theorem witness_LoadImmediateThroughExec :
    (0x0F#8).toNat < 16 ∧ (0x10#8).toNat = 0x10 ∧ 0x11 ≤ (0x11#8).toNat := by decide

/-- Each clause on two select codes, at the boundary of both. -/
theorem witness_LoadRegisterThroughExec :
    ((0x0F#8).toNat < 16 ∧ (0x00#8).toNat < 16) ∧ (0x10#8).toNat = 0x10 ∧ 0x11 ≤ (0x11#8).toNat ∧
    (0x11 ≤ (0xFF#8).toNat ∧ (0x10#8).toNat ≤ 0x10) ∧ (0x11 ≤ (0x11#8).toNat ∧ 0x11 ≤ (0x12#8).toNat) ∧
    ((0x10#8) = 0x10#8 ∧ (0x10#8).toNat ≤ 0x10) := by decide

theorem witness_SkipsOnInvalidOperandsOnlyReport :
    (0x11 ≤ (0x11#8).toNat ∧ 0x11 ≤ (0x12#8).toNat) ∧ (¬ 0x11 ≤ (0x10#8).toNat ∧ 0x11 ≤ (0x13#8).toNat) := by decide

/-- I and VF, in a machine where they hold the same number and in one where they do not. -/
theorem witness_SkipsThroughExecCompareTheValuesRead :
    (hostOp (.regRead 0x10) { State.reset with i := 5 } = .ok ({ State.reset with i := 5 }, .reg (some 5)) ∧
      hostOp (.regRead 0x0F) { State.reset with i := 5 } = .ok ({ State.reset with i := 5 }, .reg (some 0))) ∧
    (hostOp (.regRead 0x10) State.reset = .ok (State.reset, .reg (some 0)) ∧
      hostOp (.regRead 0x00) State.reset = .ok (State.reset, .reg (some 0))) := ⟨⟨rfl, rfl⟩, rfl, rfl⟩

theorem witness_DrawAddsTheUnclippedBits : Drawn [0xFF] 60 0 63 0 ∧ ¬ Drawn [0xFF] 60 0 64 0 := by
  refine ⟨⟨by decide, by decide, 0, 0xFF, 3, by decide⟩, fun h => absurd h.1 (by decide)⟩

theorem witness_DrawingTwiceErasesNothing :
    ∃ t, hostOp (.exec (.draw [0xF0, 0x90] 0 0)) State.reset = .ok (t, .bool false) := ⟨_, rfl⟩

theorem witness_ClearAndCellOff :
    (∃ t, exec (.unimplD 0x015) State.reset = .next t) ∧ Instr.unimplD 0x015 ≠ .cls := ⟨⟨_, rfl⟩, by decide⟩

theorem witness_ObserveShowsAndChangesNothing :
    hostOp (.exec (.cellOff 63 31)) State.reset = .ok (State.reset, .bool true) := rfl

/-- Each of the operations answers, here on the reset machine. -/
theorem witness_HostOperationsChangeOnlyTheirState :
    ∀ o ∈ [HostOp.load [0x00E0], .memWrite 0x1FF 7, .regWrite 0x10 7, .setPc 7, .incSp, .decSp, .setSp 7,
      .memRead 0 1, .regRead 0x11, .getPc, .getSp, .observe .fault, .reset, .step, .loadText [['0', '0', 'E', '0']],
      .exec .ret, .exec (.jp 7), .exec (.call 7), .exec (.seImm 0 7), .exec (.sneReg 0 0x11), .exec (.ldImm 0 7),
      .exec (.ldReg 0x11 0x12), .exec .clear, .exec (.draw [0xFF] 60 31), .exec (.cellOff 63 31)],
      ∃ r, hostOp o State.reset = .ok (leaves o State.reset, r) := by
  intro o ho
  fin_cases ho <;> exact ⟨_, rfl⟩

end Sys2Proof.Tests
end

section
/-! Select codes of the register file and the accessors of SP, through the host's operations (10_state). -/

namespace Sys2Proof.Machine

/-! ### Register writes by select code -/

/-- From `0x11` on no select code is general: PC, SP, STACK and the unknown codes (10_state R37). -/
theorem classify_of_ge (sel : Byte) (h : 0x11 ≤ sel.toNat) :
    classify sel = .reserved ∨ classify sel = .wrongKind ∨ classify sel = .unknown := by
  have named (k : Nat) (hk : sel.toNat = k) : sel = BitVec.ofNat 8 k := by simp [← hk]
  by_cases hpc : sel.toNat = 0x11
  · rw [named _ hpc]; exact .inl rfl
  by_cases hsp : sel.toNat = 0x12
  · rw [named _ hsp]; exact .inl rfl
  by_cases hstk : sel.toNat = 0x13
  · rw [named _ hstk]; exact .inr (.inl rfl)
  · exact .inr (.inr (classify_unknown sel (by omega)))

theorem regWrite_of_lt (s : State) (sel : Byte) (n : Nat) (h : sel.toNat < 16) :
    s.regWrite sel n = s.setV ⟨sel.toNat, h⟩ n := by
  simp only [State.regWrite, classify_of_lt sel h]

@[simp] theorem regWrite_selOf (s : State) (x : VReg) (n : Nat) : s.regWrite (selOf x) n = s.setV x n := by
  simp only [State.regWrite, classify_selOf]

@[simp] theorem regWrite_index (s : State) (n : Nat) : s.regWrite 0x10#8 n = s.setI n := rfl

theorem regWrite_of_ge (s : State) (sel : Byte) (n : Nat) (h : 0x11 ≤ sel.toNat) :
    s.regWrite sel n = s.emit (.regAccess sel) := by
  obtain hc | hc | hc := classify_of_ge sel h <;> simp only [State.regWrite, hc]

/-! ### The stack pointer -/

theorem State_incSp_decSp (s : State) : s.incSp.decSp = s := by simp [State.incSp, State.decSp]

theorem State_decSp_incSp (s : State) : s.decSp.incSp = s := by simp [State.incSp, State.decSp]

/-- IncSP wraps from 255 to 0 (10_state R31). -/
theorem toNat_incSp_sp (s : State) :
    s.incSp.sp.toNat = if s.sp.toNat = 255 then 0 else s.sp.toNat + 1 := by
  rw [State_incSp_sp]
  split <;> bv_omega

/-- DecSP wraps from 0 to 255 (10_state R31). -/
theorem toNat_decSp_sp (s : State) :
    s.decSp.sp.toNat = if s.sp.toNat = 0 then 255 else s.sp.toNat - 1 := by
  rw [State_decSp_sp]
  split <;> bv_omega

/-! ### The masks of the accessors -/

theorem ofNat_mod_byte (n : Nat) : BitVec.ofNat 8 (n % 256) = BitVec.ofNat 8 n :=
  BitVec.eq_of_toNat_eq (by simp)

theorem ofNat_mod_word (n : Nat) : BitVec.ofNat 16 (n % 65536) = BitVec.ofNat 16 n :=
  BitVec.eq_of_toNat_eq (by simp)

/-- A written byte as RegRead shows it, a 16-bit number (10_state R22, R39). -/
theorem setWidth_ofNat_byte (n : Nat) : (BitVec.ofNat 8 n).setWidth 16 = BitVec.ofNat 16 (n % 256) :=
  BitVec.eq_of_toNat_eq (by simp)

/-! ### The obligations -/

/-- Settles O42, by the class of the select code. -/
theorem regWriteBySelectCode : Obligations.RegWriteBySelectCode := by
  unfold Obligations.RegWriteBySelectCode
  intro s sel n
  refine ⟨fun h => ?_, fun h => ?_, fun h => ?_⟩
  · rw [hostOp, regWrite_of_lt s sel n h, ofNat_mod_byte, State.setV]
  · obtain rfl : sel = 0x10#8 := BitVec.eq_of_toNat_eq h
    rw [hostOp, regWrite_index, ofNat_mod_word, State.setI]
  · rw [hostOp, regWrite_of_ge s sel n h, State.emit]

/-- Settles O43: the write is `setV`, and a read is `getV` seen with 16 bits. -/
theorem generalRegisterReadsWhatWasWritten : Obligations.GeneralRegisterReadsWhatWasWritten := by
  unfold Obligations.GeneralRegisterReadsWhatWasWritten
  intro s x n
  refine ⟨s.setV x n, ?_, ?_, fun y hy => ?_⟩
  · rw [hostOp, regWrite_selOf]
  · rw [hostOp, regRead_selOf, State_getV_setV_same, setWidth_ofNat_byte]
  · rw [hostOp, regRead_selOf, State_getV_setV_other s x y n hy.symm]

/-- Settles O45: the wrap of each accessor, and that IncSP and DecSP undo each other. -/
theorem stackPointerAccessorsWrap : Obligations.StackPointerAccessorsWrap := by
  unfold Obligations.StackPointerAccessorsWrap
  intro s
  refine ⟨fun n => ?_, rfl, ⟨s.incSp, rfl, rfl, toNat_incSp_sp s, ?_⟩, ⟨s.decSp, rfl, rfl, toNat_decSp_sp s, ?_⟩⟩
  · rw [hostOp, ofNat_mod_byte, State.setSp]
  · rw [hostOp, State_incSp_decSp]
  · rw [hostOp, State_decSp_incSp]

end Sys2Proof.Machine
end

section
/-! Memory through the host's reads and writes (20_memory). -/

namespace Sys2Proof.Machine

/-! ### Writes -/

theorem outOfWriteRange_iff (addr : Nat) : outOfWriteRange addr = true ↔ addr < 0x200 ∨ 0xFFF < addr := by
  simp [outOfWriteRange]

/-- A write changes memory and the channel alone (20_memory R62). -/
theorem State_memWrite_frame (s : State) (addr n : Nat) :
    (s.memWrite addr n).1 = { s with mem := (s.memWrite addr n).1.mem, chan := (s.memWrite addr n).1.chan } := by
  unfold State.memWrite; dsimp only; split <;> split <;> rfl

/-- What an address reads as after a write to `addr`, which stores where there is a cell (20_memory R62, R64). -/
theorem State_memWrite_read (s : State) (addr n a : Nat) :
    (s.memWrite addr n).1.mem.read a =
      if a = addr ∧ addr ≤ 0xFFF then some (BitVec.ofNat 8 n) else s.mem.read a := by
  rw [State_memWrite_mem]
  by_cases hcell : addr ≤ 0xFFF
  · rw [if_pos hcell, Memory_read_write]
    simp only [hcell, and_true, eq_comm]
  · simp only [hcell, and_false, if_false]

/-! ### Reads -/

@[simp] theorem State_memRead_length (s : State) (addr n : Nat) :
    (s.memRead addr n).length = readLength addr n := by
  rw [State.memRead, List.length_map, List.length_range]

/-- Each entry of a read is what its cell holds (20_memory R65, R67). -/
theorem State_memRead_getElem? (s : State) (addr n k : Nat) (h : k < readLength addr n) :
    (s.memRead addr n)[k]? = some (s.mem.read (addr + k)) := by
  rw [State.memRead, List.getElem?_map, List.getElem?_range h, Option.map_some]

/-! ### The obligations -/

/-- Settles O47, by what a write leaves of each part of the state. -/
theorem memWriteReportsAndStores : Obligations.MemWriteReportsAndStores := by
  unfold Obligations.MemWriteReportsAndStores
  intro s addr n
  refine ⟨(s.memWrite addr.toNat n).1, ?_, State_memWrite_frame s addr.toNat n, fun a => ?_, ?_⟩
  · rw [hostOp, State_memWrite_stored, ofNat_mod_byte]
  · rw [State_memWrite_read, ofNat_mod_byte]
  · rw [State_memWrite_chan]
    simp only [outOfWriteRange_iff]
    split
    · rfl
    · rw [List.append_nil]

/-- Settles O48, by the length and the entries of a read. -/
theorem memReadGivesTheInRangePrefix : Obligations.MemReadGivesTheInRangePrefix := by
  unfold Obligations.MemReadGivesTheInRangePrefix
  intro s addr n
  refine ⟨s.memRead addr.toNat n, rfl, ?_, fun k hk => ?_⟩
  · rw [State_memRead_length, readLength]
  · rw [State_memRead_length] at hk
    exact State_memRead_getElem? s addr.toNat n k hk

end Sys2Proof.Machine
end

section
/-! The rows of the opcode map, by the leading digit under the mask 0xF000 (30_encoding section 4). -/

namespace Sys2Proof.Machine

/-! ### The fields of a word, cut by width -/

theorem fieldNnn_eq_setWidth (w : Word) : fieldNnn w = w.setWidth 12 :=
  BitVec.eq_of_toNat_eq (by rw [toNat_fieldNnn, BitVec.toNat_setWidth])

theorem fieldKk_eq_setWidth (w : Word) : fieldKk w = w.setWidth 8 :=
  BitVec.eq_of_toNat_eq (by rw [toNat_fieldKk, BitVec.toNat_setWidth])

theorem fieldZ_eq_setWidth (w : Word) : fieldZ w = w.setWidth 4 :=
  BitVec.eq_of_toNat_eq (by rw [toNat_fieldZ, BitVec.toNat_setWidth])

/-! ### The leading digit -/

/-- The mask 0xF000 keeps the leading digit (30_encoding R92, R97). -/
theorem toNat_and_leadingMask_div (w : Word) : (w &&& 0xF000#16).toNat / 4096 = w.toNat / 4096 := by
  have hdigit : w.toNat / 2 ^ 12 < 2 ^ 4 := by have := w.isLt; omega
  calc (w &&& 0xF000#16).toNat / 2 ^ 12
      = w.toNat / 2 ^ 12 &&& 2 ^ 4 - 1 := by rw [BitVec.toNat_and, Nat.and_div_two_pow]; rfl
    _ = w.toNat / 2 ^ 12 := Nat.and_two_pow_sub_one_of_lt_two_pow hdigit

/-- A word that is neither CLS nor RET decodes by what the mask 0xF000 leaves of it (30_encoding R97, R100). -/
theorem decodeWord_of_and_leadingMask {w m : Word} (hcls : w ≠ 0x00E0#16) (hret : w ≠ 0x00EE#16)
    (hm : w &&& 0xF000#16 = m) : decodeWord w = decodeByOp (m.toNat / 4096) w := by
  rw [decodeWord, if_neg hcls, if_neg hret, toNat_fieldOp, ← hm, toNat_and_leadingMask_div]

/-! ### The obligation -/

/-- Settles O3: each row is `decodeByOp` at the digit its mask leaves, and the fields are the cuts of the word. -/
theorem opcodeMapRowsDecode : Obligations.OpcodeMapRowsDecode := by
  unfold Obligations.OpcodeMapRowsDecode
  intro w
  refine ⟨fun h => by rw [h]; rfl, fun h => by rw [h]; rfl, fun hcls hret => ?_⟩
  simp only [← fieldNnn_eq_setWidth, ← fieldKk_eq_setWidth, ← fieldZ_eq_setWidth]
  refine ⟨?_, ?_, ?_, ?_, ?_, ?_, ?_, ?_, ?_, ?_, ?_, ?_, ?_, ?_, ?_, ?_⟩ <;>
    exact fun hm => decodeWord_of_and_leadingMask hcls hret hm

end Sys2Proof.Machine
end

section
/-! JP and CALL as instructions and through Exec, and chains of nested calls (40_control_transfer). -/

namespace Sys2Proof.Machine

/-! ### Where a transfer lands -/

theorem jumpTarget_eq_ofNat_mod (addr : Nat) : jumpTarget addr = BitVec.ofNat 16 (addr % 4096) :=
  BitVec.eq_of_toNat_eq (by simp [jumpTarget])

/-- The landing of an instruction's transfer is not cut to 12 bits again (40_control_transfer R121, R123). -/
theorem jumpTarget_add_two (nnn : Word12) : jumpTarget nnn.toNat + 2 = BitVec.ofNat 16 (nnn.toNat + 2) := by
  rw [jumpTarget_eq_ofNat_mod, Nat.mod_eq_of_lt nnn.isLt, BitVec.ofNat_add]; rfl

/-- The landing fits in 16 bits: it is at most 0x1001 (40_control_transfer R121). -/
theorem toNat_landing (nnn : Word12) : (BitVec.ofNat 16 (nnn.toNat + 2)).toNat = nnn.toNat + 2 := by
  have := nnn.isLt
  rw [BitVec.toNat_ofNat, Nat.mod_eq_of_lt (by omega)]

/-! ### JP -/

theorem exec_jp (s : State) (nnn : Word12) :
    exec (.jp nnn) s = .next { s with pc := BitVec.ofNat 16 (nnn.toNat + 2) } := by
  rw [← jumpTarget_add_two]; rfl

theorem execHostOp_jp (s : State) (addr : Nat) :
    execHostOp (.jp addr) s = ({ s with pc := BitVec.ofNat 16 (addr % 4096) }, .none) := by
  rw [← jumpTarget_eq_ofNat_mod]; rfl

/-! ### CALL -/

theorem exec_call (s : State) (nnn : Word12) :
    exec (.call nnn) s = .next { s with
      sp := s.sp + 1, stk := s.stk.write (s.sp + 1) s.pc, pc := BitVec.ofNat 16 (nnn.toNat + 2) } := by
  rw [← jumpTarget_add_two]; rfl

theorem execHostOp_call (s : State) (addr : Nat) :
    execHostOp (.call addr) s = ({ s with
      sp := s.sp + 1, stk := s.stk.write (s.sp + 1) s.pc, pc := BitVec.ofNat 16 (addr % 4096) }, .none) := by
  rw [← jumpTarget_eq_ofNat_mod]; rfl

/-- What a CALL leaves of the stack: SP one more, and its own address on top. -/
theorem exec_call_top {s t : State} {nnn : Word12} (h : exec (.call nnn) s = .next t) :
    t.sp = s.sp + 1 ∧ t.stk.read t.sp = some s.pc := by
  rw [exec_call] at h
  cases h
  exact ⟨rfl, Stack_read_write_same ..⟩

/-- Nested calls count SP up, modulo 256, when whatever runs between two of them leaves SP alone. -/
theorem nestedCalls_sp {a b : Nat → State} {n : Nat → Word12} {m : Nat}
    (hcall : ∀ k ≤ m, exec (.call (n k)) (a k) = .next (b k)) (hbetween : ∀ k < m, (a (k + 1)).sp = (b k).sp) :
    ∀ k ≤ m, (b k).sp = (a 0).sp + BitVec.ofNat 8 (k + 1) := by
  intro k
  induction k with
  | zero => exact fun hk => (exec_call_top (hcall 0 hk)).1
  | succ k ih =>
    intro hk
    calc (b (k + 1)).sp
        = (a (k + 1)).sp + 1 := (exec_call_top (hcall (k + 1) hk)).1
      _ = (a 0).sp + BitVec.ofNat 8 (k + 1) + 1 := by rw [hbetween k hk, ih (Nat.le_of_succ_le hk)]
      _ = (a 0).sp + BitVec.ofNat 8 (k + 1 + 1) := by rw [BitVec.add_assoc, BitVec.ofNat_add (k + 1) 1]; rfl

/-! ### The obligations -/

/-- Settles O19: the slots by the read law of the stack store, the 257th nested call by counting SP along the chain, where
257 is 1 modulo 256. -/
theorem callStoresItsOwnAddress : Obligations.CallStoresItsOwnAddress := by
  unfold Obligations.CallStoresItsOwnAddress
  intro s nnn
  have slots (k : Byte) :
      (s.stk.write (s.sp + 1) s.pc).read k = if k = s.sp + 1 then some s.pc else s.stk.read k := by
    rw [Stack_read_write]; simp only [eq_comm]
  refine ⟨Laws.RoundTrip.call nnn rfl, ⟨_, exec_call s nnn, rfl, slots⟩,
    fun addr => ⟨_, execHostOp_call s addr, rfl, slots⟩, fun h => by rw [h]; rfl, by bv_omega, ?_⟩
  rintro a b n rfl hcall hbetween
  obtain ⟨hsp_first, htop_first⟩ := exec_call_top (hcall 0 (by omega))
  have hsp_last : (b 256).sp = (a 0).sp + 1 := nestedCalls_sp hcall hbetween 256 (by omega)
  have htop_last := (exec_call_top (hcall 256 (by omega))).2
  exact ⟨hsp_first, hsp_first ▸ htop_first, hsp_last, hsp_last ▸ htop_last⟩

/-- Settles O18: the landing is `nnn + 2` unmasked, so the three last targets land where no word can be fetched. -/
theorem jpLandsTwoPastItsTarget : Obligations.JpLandsTwoPastItsTarget := by
  unfold Obligations.JpLandsTwoPastItsTarget
  intro s nnn
  have hlanding := toNat_landing nnn
  refine ⟨Laws.RoundTrip.jp nnn rfl, exec_jp s nnn, by have := nnn.isLt; omega, execHostOp_jp s, fun hself => ?_,
    fun hpast => ?_, fun hlast w hw => ?_⟩
  · have hpc : BitVec.ofNat 16 (nnn.toNat + 2) = s.pc := BitVec.eq_of_toNat_eq (hlanding.trans hself.symm)
    rw [exec_jp, hpc]
  · exact fetch_of_ge _ (by dsimp only; omega)
  · have hlt := (fetch_word hw).1
    dsimp only at hlt
    omega

end Sys2Proof.Machine
end

section
/-! SE and SNE as instructions and through Exec, and LD reg, kk through Exec (41_conditional_load). -/

namespace Sys2Proof.Machine

/-! ### The skip and the uniform advance together -/

/-- A skip handler whose condition is `p`, run as an instruction: `PC + 4` when it skips and `PC + 2` when it does not
(41_conditional_load R146, 43_cycle R187). -/
theorem retire_advance_ite (s : State) (p : Prop) [Decidable p] :
    retire s (.ok (if p then s.advance else s)) = .next { s with pc := if p then s.pc + 4 else s.pc + 2 } := by
  have hfour : s.pc + 2 + 2 = s.pc + 4 := by rw [BitVec.add_assoc]; rfl
  by_cases hp : p
  · rw [if_pos hp, if_pos hp, ← hfour]; rfl
  · rw [if_neg hp, if_neg hp]; rfl

/-- The two landings of a skip instruction are different states, so `PC + 4` says that the condition held. -/
theorem next_skip_eq_add_four_iff (s : State) (p : Prop) [Decidable p] :
    (Host.Outcome.next { s with pc := if p then s.pc + 4 else s.pc + 2 } : Host.Outcome State Fault Refusal) =
      .next { s with pc := s.pc + 4 } ↔ p := by
  by_cases hp : p <;> simp [hp]

/-- In the same way `PC + 2` says that the condition failed. -/
theorem next_skip_eq_add_two_iff (s : State) (p : Prop) [Decidable p] :
    (Host.Outcome.next { s with pc := if p then s.pc + 4 else s.pc + 2 } : Host.Outcome State Fault Refusal) =
      .next { s with pc := s.pc + 2 } ↔ ¬ p := by
  by_cases hp : p <;> simp [hp]

/-! ### The handlers on V registers -/

theorem handleSeImm_selOf (x : VReg) (n : Nat) (s : State) :
    handleSeImm (selOf x) n s = if s.getV x = BitVec.ofNat 8 n then s.advance else s := by
  rw [handleSeImm, skipOnImm_selOf, State.skipIf]
  simp only [beq_true, beq_iff_eq]

theorem handleSneImm_selOf (x : VReg) (n : Nat) (s : State) :
    handleSneImm (selOf x) n s = if s.getV x ≠ BitVec.ofNat 8 n then s.advance else s := by
  rw [handleSneImm, skipOnImm_selOf, State.skipIf]
  simp only [beq_false, Bool.not_eq_true', beq_eq_false_iff_ne]

theorem handleSeReg_selOf (x y : VReg) (s : State) :
    handleSeReg (selOf x) (selOf y) s = if s.getV x = s.getV y then s.advance else s := by
  rw [handleSeReg, skipOnReg_selOf, State.skipIf]
  simp only [beq_true, beq_iff_eq]

theorem handleSneReg_selOf (x y : VReg) (s : State) :
    handleSneReg (selOf x) (selOf y) s = if s.getV x ≠ s.getV y then s.advance else s := by
  rw [handleSneReg, skipOnReg_selOf, State.skipIf]
  simp only [beq_false, Bool.not_eq_true', beq_eq_false_iff_ne]

/-! ### The instructions -/

theorem exec_seImm (s : State) (x : VReg) (kk : Byte) :
    exec (.seImm x kk) s = .next { s with pc := if s.getV x = kk then s.pc + 4 else s.pc + 2 } := by
  rw [exec, execSeImm, handleSeImm_selOf, BitVec.ofNat_toNat, BitVec.setWidth_eq, retire_advance_ite]

theorem exec_sneImm (s : State) (x : VReg) (kk : Byte) :
    exec (.sneImm x kk) s = .next { s with pc := if s.getV x ≠ kk then s.pc + 4 else s.pc + 2 } := by
  rw [exec, execSneImm, handleSneImm_selOf, BitVec.ofNat_toNat, BitVec.setWidth_eq, retire_advance_ite]

theorem exec_seReg (s : State) (x y : VReg) (z : Digit) :
    exec (.seReg x y z) s = .next { s with pc := if s.getV x = s.getV y then s.pc + 4 else s.pc + 2 } := by
  rw [exec, execSeReg, handleSeReg_selOf, retire_advance_ite]

theorem exec_sneReg (s : State) (x y : VReg) (z : Digit) :
    exec (.sneReg x y z) s = .next { s with pc := if s.getV x ≠ s.getV y then s.pc + 4 else s.pc + 2 } := by
  rw [exec, execSneReg, handleSneReg_selOf, retire_advance_ite]

/-! ### LD reg, kk -/

/-- LD reg, kk is the host's register write of the cut immediate (41_conditional_load R144). -/
theorem hostOp_ldImm (s : State) (reg : Byte) (kk : Nat) :
    hostOp (.exec (.ldImm reg kk)) s = hostOp (.regWrite reg (kk % 256)) s := by
  have hcut : (BitVec.ofNat 8 kk).toNat = kk % 256 := BitVec.toNat_ofNat kk 8
  rw [← hcut]; rfl

/-! ### The obligations -/

/-- Settles O21: the handler skips on equality, and `retire_advance_ite` adds the uniform advance. -/
theorem seImmSkipsOnEquality : Obligations.SeImmSkipsOnEquality := by
  unfold Obligations.SeImmSkipsOnEquality
  intro s x kk
  refine ⟨Laws.RoundTrip.seImm x kk rfl, exec_seImm s x kk, fun n => ?_⟩
  rw [execHostOp, handleSeImm_selOf, ofNat_mod_byte]; rfl

/-- Settles O22; the complement of SE because each landing says whether its condition held. -/
theorem sneImmSkipsOnInequality : Obligations.SneImmSkipsOnInequality := by
  unfold Obligations.SneImmSkipsOnInequality
  intro s x kk
  refine ⟨Laws.RoundTrip.sneImm x kk rfl, exec_sneImm s x kk, fun n => ?_, ?_⟩
  · rw [execHostOp, handleSneImm_selOf, ofNat_mod_byte]; rfl
  · rw [exec_seImm, exec_sneImm, next_skip_eq_add_four_iff, next_skip_eq_add_two_iff, not_ne_iff]

/-- Settles O23: the fourth digit does not reach the handler, and a register equals itself. -/
theorem seRegSkipsOnEquality : Obligations.SeRegSkipsOnEquality := by
  unfold Obligations.SeRegSkipsOnEquality
  intro s x y z
  refine ⟨Laws.RoundTrip.seReg x y z rfl, exec_seReg s x y z, ?_, ?_⟩
  · rw [execHostOp, handleSeReg_selOf]; rfl
  · rw [exec_seReg, if_pos rfl]

/-- Settles O24; the complement of SE as for the immediate form. -/
theorem sneRegSkipsOnInequality : Obligations.SneRegSkipsOnInequality := by
  unfold Obligations.SneRegSkipsOnInequality
  intro s x y z
  refine ⟨Laws.RoundTrip.sneReg x y z rfl, exec_sneReg s x y z, ?_, ?_, ?_⟩
  · rw [execHostOp, handleSneReg_selOf]; rfl
  · rw [exec_sneReg, if_neg (not_ne_iff.mpr rfl)]
  · rw [exec_seReg, exec_sneReg, next_skip_eq_add_four_iff, next_skip_eq_add_two_iff, not_ne_iff]

/-- Settles O51: LD reg, kk is a register write, and what a register write does is O42; its 16-bit mask of I does nothing
to a value already cut to 8 bits. -/
theorem loadImmediateThroughExec : Obligations.LoadImmediateThroughExec := by
  unfold Obligations.LoadImmediateThroughExec
  intro s reg kk
  obtain ⟨hgeneral, hindex, hother⟩ := regWriteBySelectCode s reg (kk % 256)
  rw [hostOp_ldImm]
  refine ⟨rfl, fun h => ?_, fun h => ?_, hother⟩
  · rw [hgeneral h, Nat.mod_mod]
  · rw [hindex h, ofNat_mod_word]

end Sys2Proof.Machine
end

section
/-! The display: CLS, Clear and CellOff, and what Draw turns on and collides with (42_display). -/

namespace Sys2Proof.Machine

/-! ### CLS, Clear and CellOff -/

theorem exec_cls (s : State) : exec .cls s = .next (handleClear s).advance := rfl

/-- A grid with no cell on is the cleared grid. -/
theorem eq_allOff_of_isOn_false {g : Grid} (h : ∀ c r, g.isOn c r = false) : g = Grid.allOff :=
  Grid_ext fun c r => by rw [h, Grid_isOn_allOff]

/-- No instruction but CLS touches the display (42_display R161, R168). -/
theorem exec_disp_of_ne_cls {i : Instr} {s t : State} (hi : i ≠ .cls) (h : exec i s = .next t) : t.disp = s.disp := by
  obtain ⟨hcls, -⟩ | ⟨-, -, rfl⟩ | ⟨-, r, -, rfl⟩ | ⟨n, -, rfl⟩ | ⟨n, -, rfl⟩ | ⟨-, rfl | rfl⟩ | ⟨-, rfl⟩ := exec_cases h
  case inl => exact absurd hcls hi
  all_goals rfl

theorem cellOff_of_disp_eq_allOff {s : State} (h : s.disp = Grid.allOff) (c : Fin 64) (r : Fin 32) :
    cellOff c r s = true := by
  rw [cellOff, h, Grid_isOn_allOff, Bool.not_false]

/-- The bit of a cell is the bit of the stored row (10_state R35). -/
theorem cellOff_eq_not_getLsbD (s : State) (c : Fin 64) (r : Fin 32) :
    cellOff c r s = !(s.disp[r.val]).getLsbD c.val := by
  rw [cellOff, Grid.isOn, dif_pos r.isLt]

/-! ### Drawing a set of cells -/

/-- Drawing the cells `P` takes the grid and collision flag `a` to `b`: the cells of `P` come on and no other changes, and
the flag comes on when a cell of `P` was on before (42_display R162, R164, R165). -/
def Draws (P : Nat → Nat → Prop) (a b : Grid × Bool) : Prop :=
  (∀ c r, b.1.isOn c r = true ↔ a.1.isOn c r = true ∨ P c r) ∧
  (b.2 = true ↔ a.2 = true ∨ ∃ c r, P c r ∧ a.1.isOn c r = true)

theorem Draws.congr {P Q : Nat → Nat → Prop} {a b : Grid × Bool} (h : Draws P a b) (hPQ : ∀ c r, P c r ↔ Q c r) :
    Draws Q a b := by
  obtain rfl : P = Q := funext₂ fun c r => propext (hPQ c r)
  exact h

theorem Draws.of_empty {P : Nat → Nat → Prop} (hP : ∀ c r, ¬ P c r) (a : Grid × Bool) : Draws P a a := by
  simp [Draws, hP]

/-- Two drawings of disjoint sets of cells are one drawing of both: what the first turned on, the second does not meet. -/
theorem Draws.trans {P Q : Nat → Nat → Prop} {a b c : Grid × Bool} (hP : Draws P a b) (hQ : Draws Q b c)
    (hdisj : ∀ x y, P x y → ¬ Q x y) : Draws (fun x y => P x y ∨ Q x y) a c := by
  obtain ⟨hPon, hPhit⟩ := hP
  obtain ⟨hQon, hQhit⟩ := hQ
  have hmet (x y : Nat) : Q x y ∧ b.1.isOn x y = true ↔ Q x y ∧ a.1.isOn x y = true := by
    have := hdisj x y
    rw [hPon]
    tauto
  refine ⟨fun x y => ?_, ?_⟩
  · rw [hQon, hPon, or_assoc]
  · simp only [hQhit, hPhit, hmet, or_and_right, exists_or, or_assoc]

/-! ### A bit, a row and a sprite -/

theorem draws_drawBit (bit : Bool) (c r : Nat) (acc : Grid × Bool) :
    Draws (fun c' r' => r' = r ∧ bitDrawn bit c r ∧ c' = c) acc (drawBit bit c r acc) := by
  by_cases h : bitDrawn bit c r
  · have ⟨_, hc, hr⟩ := h
    rw [drawBit_of_drawn h]
    refine ⟨fun c' r' => ?_, ?_⟩
    · rw [Grid_isOn_turnOn _ hc hr]
      simp only [Bool.or_eq_true, Bool.and_eq_true, decide_eq_true_iff, and_iff_right h, and_comm, @eq_comm _ c,
        @eq_comm _ r]
    · simp only [Bool.or_eq_true, and_iff_right h, and_assoc, exists_eq_left]
  · rw [drawBit_of_not_drawn h]
    exact .of_empty (fun _ _ ⟨_, hd, _⟩ => h hd) acc

/-- The first `n` bits of a sprite byte, from the most significant, put an unclipped 1 at the cell `(c, r')` when drawn on
row `r` from column `x0` (42_display R162, R171). -/
def RowBits (row : Byte) (x0 r n c r' : Nat) : Prop :=
  r' = r ∧ ∃ i < n, bitDrawn (row.getMsbD i) (x0 + i) r ∧ c = x0 + i

theorem rowBits_succ_iff (row : Byte) (x0 r n c r' : Nat) :
    RowBits row x0 r (n + 1) c r' ↔
      RowBits row x0 r n c r' ∨ (r' = r ∧ bitDrawn (row.getMsbD n) (x0 + n) r ∧ c = x0 + n) := by
  simp only [RowBits, Nat.lt_succ_iff_lt_or_eq, or_and_right, exists_or, exists_eq_left, and_or_left]

theorem draws_firstBits (row : Byte) (x0 r n : Nat) (acc : Grid × Bool) :
    Draws (RowBits row x0 r n) acc
      ((List.range n).foldl (fun acc i => drawBit (row.getMsbD i) (x0 + i) r acc) acc) := by
  induction n with
  | zero => exact .of_empty (by simp [RowBits]) acc
  | succ n ih =>
    rw [List.range_succ, List.foldl_append]
    refine (ih.trans (draws_drawBit (row.getMsbD n) (x0 + n) r _) ?_).congr fun c r' => (rowBits_succ_iff ..).symm
    rintro c r' ⟨-, i, hi, -, hci⟩ ⟨-, -, hcn⟩
    omega

theorem draws_drawRow (row : Byte) (x0 r : Nat) (acc : Grid × Bool) :
    Draws (RowBits row x0 r 8) acc (drawRow row x0 r acc) :=
  draws_firstBits row x0 r 8 acc

/-- A sprite drawn from `(x0, r)` has an unclipped 1 bit at the cell `(c, r')`. -/
def SpriteBits (sprite : List Byte) (x0 r c r' : Nat) : Prop :=
  ∃ j row, sprite[j]? = some row ∧ RowBits row x0 (r + j) 8 c r'

theorem spriteBits_cons_iff (row : Byte) (rest : List Byte) (x0 r c r' : Nat) :
    SpriteBits (row :: rest) x0 r c r' ↔ RowBits row x0 r 8 c r' ∨ SpriteBits rest x0 (r + 1) c r' := by
  constructor
  · rintro ⟨_ | j, row', hj, hbits⟩
    · obtain rfl : row = row' := by simpa using hj
      exact .inl hbits
    · exact .inr ⟨j, row', by simpa using hj, by rwa [Nat.add_right_comm]⟩
  · rintro (hbits | ⟨j, row', hj, hbits⟩)
    · exact ⟨0, row, rfl, hbits⟩
    · exact ⟨j + 1, row', by simpa using hj, by rwa [Nat.add_right_comm] at hbits⟩

theorem draws_drawRows (sprite : List Byte) (x0 r : Nat) (acc : Grid × Bool) :
    Draws (SpriteBits sprite x0 r) acc (drawRows sprite x0 r acc) := by
  induction sprite generalizing r acc with
  | nil => exact .of_empty (by simp [SpriteBits]) acc
  | cons row rest ih =>
    refine ((draws_drawRow row x0 r acc).trans (ih (r + 1) _) ?_).congr fun c r' => (spriteBits_cons_iff ..).symm
    rintro c r' ⟨hr, -⟩ ⟨j, row', -, hr', -⟩
    omega

/-! ### Draw -/

/-- `Drawn` wraps the start itself, and names bit `i` from the most significant as bit `7 - i` from the least. -/
theorem drawn_iff_spriteBits (sprite : List Byte) (x y c r : Nat) :
    Drawn sprite x y c r ↔ SpriteBits sprite (x % 64) (y % 32) c r := by
  constructor
  · rintro ⟨hc, hr, j, row, i, hj, hi, hbit, rfl, rfl⟩
    exact ⟨j, row, hj, rfl, i, hi, ⟨by simp [BitVec.getMsbD, hi, hbit], hc, hr⟩, rfl⟩
  · rintro ⟨j, row, hj, rfl, i, hi, ⟨hbit, hc, hr⟩, rfl⟩
    exact ⟨hc, hr, j, row, i, hj, hi, by simpa [BitVec.getMsbD, hi] using hbit, rfl, rfl⟩

theorem draws_draw (g : Grid) (sprite : List Byte) (x y : Nat) :
    Draws (Drawn sprite x y) (g, false) (g.draw sprite x y) :=
  (draws_drawRows sprite (x % 64) (y % 32) (g, false)).congr fun c r => (drawn_iff_spriteBits sprite x y c r).symm

/-! ### The obligations -/

/-- Settles O55: the bits of a sprite lie on different cells, so drawing them one by one is drawing their set at once. -/
theorem drawAddsTheUnclippedBits : Obligations.DrawAddsTheUnclippedBits := by
  unfold Obligations.DrawAddsTheUnclippedBits
  intro s sprite x y
  obtain ⟨hon, hhit⟩ := draws_draw s.disp sprite x y
  exact ⟨(handleDraw sprite x y s).1, (handleDraw sprite x y s).2, rfl, rfl, hon, hhit.trans (by simp)⟩

/-- Settles O15: CLS is Clear and the uniform advance, and a grid with no cell on is already the cleared one. -/
theorem clsTurnsEveryCellOff : Obligations.ClsTurnsEveryCellOff := by
  unfold Obligations.ClsTurnsEveryCellOff
  refine ⟨rfl, fun s => ⟨_, exec_cls s, rfl, Grid_isOn_allOff, fun hoff => ?_⟩⟩
  rw [handleClear, ← eq_allOff_of_isOn_false hoff]
  rfl

/-- Settles O57, by what each instruction leaves of the display and by what CellOff reads. -/
theorem clearAndCellOff : Obligations.ClearAndCellOff := by
  unfold Obligations.ClearAndCellOff
  intro s
  refine ⟨⟨_, exec_cls s, Grid_isOn_allOff⟩, fun i t => exec_disp_of_ne_cls,
    ⟨handleClear s, rfl, rfl, fun c r => ?_⟩, fun c r => ?_⟩
  · rw [hostOp, execHostOp, cellOff_of_disp_eq_allOff (handleClear_disp s)]
  · rw [hostOp, execHostOp, cellOff_eq_not_getLsbD]

end Sys2Proof.Machine
end

section
/-! The uniform advance after every handler, and the words the decoder does not dispatch (43_cycle). -/

namespace Sys2Proof.Machine

/-! ### The words that are not dispatched -/

/-- All ten groups do the same (43_cycle R186). -/
theorem exec_of_not_dispatched {i : Instr} (h : i.isDispatched = false) (s : State) :
    exec i s = .next (s.emit (.unimplemented (encode i))).advance := by
  cases i
  case cls | ret | jp | call | seImm | sneImm | seReg | sneReg => cases h
  all_goals rfl

/-! ### RET with a set slot -/

theorem exec_ret_of_top {s : State} {r : Word} (h : s.top = some r) :
    exec .ret s = .next (s.decSp.setPc r.toNat).advance := by
  simp only [exec, execRet, handleRet, h, retire_ok, State.setPc, BitVec.ofNat_toNat, BitVec.setWidth_eq]

theorem execHostOp_ret_of_top {s : State} {r : Word} (h : s.top = some r) :
    execHostOp .ret s = (s.decSp.setPc r.toNat, .none) := by
  simp only [execHostOp, handleRet, h, State.setPc, BitVec.ofNat_toNat, BitVec.setWidth_eq]

/-! ### The uniform advance as a number -/

theorem State_advance_eq_ofNat_mod (s : State) :
    s.advance = { s with pc := BitVec.ofNat 16 ((s.pc.toNat + 2) % 65536) } := by
  rw [ofNat_mod_word, BitVec.ofNat_add, BitVec.ofNat_toNat, BitVec.setWidth_eq]; rfl

/-! ### The outcome of a Step -/

/-- An instruction touches the latch only when RET takes its fault, and then nothing else changes (43_cycle R191). -/
theorem exec_fault_cases {i : Instr} {s t : State} (h : exec i s = .next t) :
    t = s.takeFault .stackUnset ∨ t.fault = s.fault := by
  obtain ⟨-, rfl⟩ | ⟨-, -, rfl⟩ | ⟨-, r, -, rfl⟩ | ⟨n, -, rfl⟩ | ⟨n, -, rfl⟩ | ⟨-, rfl | rfl⟩ | ⟨-, rfl⟩ := exec_cases h
  case inr.inl => exact .inl rfl
  all_goals exact .inr rfl

/-- A Step that fetched a word and left the latch clear is reported `Ok` (43_cycle R189). -/
theorem stepReport_of_word {s t : State} {w : Word} (hf : t.fault = none) (hw : s.fetch = .word w) :
    stepReport s t = ⟨.ok, none⟩ := by
  simp only [stepReport, hf, hw]

/-- A Step that is not `Ok` does not advance: it fetched no whole word, or RET took its fault. -/
theorem step_pc_of_outcome_ne_ok {s t : State} (h : step s = .next t) (hr : (stepReport s t).outcome ≠ .ok) :
    t.pc = s.pc := by
  obtain ⟨hf, ⟨-, rfl⟩ | ⟨-, rfl⟩ | ⟨w, hw, hexec⟩⟩ := step_cases h
  · rfl
  · rfl
  · obtain rfl | hlatch := exec_fault_cases hexec
    · rfl
    · rw [stepReport_of_word (hlatch.trans hf) hw] at hr
      exact absurd rfl hr

/-- All the host's Step can answer: the next state with its report, or the latched fault and no change (45_host_interface
R228). -/
theorem hostOp_step_cases {s t : State} {a : HostResult} (h : hostOp .step s = .ok (t, a)) :
    (step s = .next t ∧ a = .report (stepReport s t)) ∨ (∃ f, t = s ∧ a = .report ⟨.fault f, none⟩) := by
  rw [hostOp, hostStep] at h
  cases hs : step s with
  | next u => rw [hs] at h; cases h; exact .inl ⟨rfl, rfl⟩
  | fault f => rw [hs] at h; cases h; exact .inr ⟨f, rfl, rfl⟩
  | refused e => rw [hs] at h; cases h

/-! ### The obligations -/

/-- Settles O8: RET by its slot, the ten groups by their one report, and a Step that is not `Ok` by what it can have done;
the other instructions are their handler and `retire` as they stand. -/
theorem uniformAdvanceFollowsTheHandler : Obligations.UniformAdvanceFollowsTheHandler := by
  unfold Obligations.UniformAdvanceFollowsTheHandler
  intro s
  refine ⟨rfl, fun htop => ?_, fun _ => rfl, fun _ => rfl, fun _ _ => rfl, fun _ _ => rfl, fun _ _ _ => rfl,
    fun _ _ _ => rfl, fun i hi u => ?_, State_advance_eq_ofNat_mod, fun t r h hr => ?_⟩
  · obtain ⟨r, hslot⟩ := Option.ne_none_iff_exists'.mp htop
    rw [exec_ret_of_top hslot, execHostOp_ret_of_top hslot]
  · fin_cases hi <;> exact exec_of_not_dispatched rfl s
  · obtain ⟨hstep, hreport⟩ | ⟨f, rfl, -⟩ := hostOp_step_cases h
    · cases hreport
      exact step_pc_of_outcome_ne_ok hstep hr
    · rfl

/-- Settles O25: the groups by the round trip of their words, which in group 0 needs a word other than CLS and RET; the effect
by `exec_of_not_dispatched`. -/
theorem unimplementedWordsOnlyReport : Obligations.UnimplementedWordsOnlyReport := by
  unfold Obligations.UnimplementedWordsOnlyReport
  intro s u
  have effect {i : Instr} (h : i.isDispatched = false) :
      exec i s = .next { s with pc := s.pc + 2, chan := s.chan ++ [.unimplemented (encode i)] } :=
    exec_of_not_dispatched h s
  have wf_zero (hcls : u ≠ 0x0E0) (hret : u ≠ 0x0EE) : (Instr.unimpl0 u).WellFormed := by
    simpa [Instr.WellFormed, Instr.wellFormed] using And.intro hcls hret
  exact ⟨fun hcls hret => Laws.RoundTrip.unimpl0 u (wf_zero hcls hret), effect rfl,
    Laws.RoundTrip.unimpl6 u rfl, effect rfl,
    Laws.RoundTrip.unimpl7 u rfl, effect rfl,
    Laws.RoundTrip.unimpl8 u rfl, effect rfl,
    Laws.RoundTrip.unimplA u rfl, effect rfl,
    Laws.RoundTrip.unimplB u rfl, effect rfl,
    Laws.RoundTrip.unimplC u rfl, effect rfl,
    Laws.RoundTrip.unimplD u rfl, effect rfl,
    Laws.RoundTrip.unimplE u rfl, effect rfl,
    Laws.RoundTrip.unimplF u rfl, effect rfl⟩

end Sys2Proof.Machine
end

section
/-! Decode and encode are inverse to each other, and the digit that no instruction reads (30_encoding). -/

namespace Sys2Proof.Machine

/-! ### Decode after encode -/

theorem decodeWord_encode {i : Instr} (h : i.WellFormed) : decodeWord (encode i) = i := by
  cases i with
  | cls => exact Laws.RoundTrip.cls h
  | ret => exact Laws.RoundTrip.ret h
  | unimpl0 u => exact Laws.RoundTrip.unimpl0 u h
  | jp u => exact Laws.RoundTrip.jp u h
  | call u => exact Laws.RoundTrip.call u h
  | seImm x kk => exact Laws.RoundTrip.seImm x kk h
  | sneImm x kk => exact Laws.RoundTrip.sneImm x kk h
  | seReg x y z => exact Laws.RoundTrip.seReg x y z h
  | unimpl6 u => exact Laws.RoundTrip.unimpl6 u h
  | unimpl7 u => exact Laws.RoundTrip.unimpl7 u h
  | unimpl8 u => exact Laws.RoundTrip.unimpl8 u h
  | sneReg x y z => exact Laws.RoundTrip.sneReg x y z h
  | unimplA u => exact Laws.RoundTrip.unimplA u h
  | unimplB u => exact Laws.RoundTrip.unimplB u h
  | unimplC u => exact Laws.RoundTrip.unimplC u h
  | unimplD u => exact Laws.RoundTrip.unimplD u h
  | unimplE u => exact Laws.RoundTrip.unimplE u h
  | unimplF u => exact Laws.RoundTrip.unimplF u h

theorem decode_encodeBytes_append {i : Instr} (h : i.WellFormed) (rest : List Byte) :
    decode (encodeBytes i ++ rest) = .ok (i, rest) := by
  have hbytes : decode (encodeBytes i ++ rest) =
      .ok (decodeWord (wordOfBytes (highByte (encode i)) (lowByte (encode i))), rest) := rfl
  rw [hbytes, wordOfBytes_high_low, decodeWord_encode h]

/-! ### Encode after decode -/

/-- A word is its leading digit and the 12 bits after it (30_encoding R92, R93). -/
theorem digit_append_fieldNnn {w : Word} {d : Digit} (h : d = fieldOp w) : d ++ fieldNnn w = w := by
  subst h
  apply BitVec.eq_of_toNat_eq
  rw [toNat_digit_word12, toNat_fieldOp, toNat_fieldNnn]
  omega

theorem digit_append_fieldX_fieldKk {w : Word} {d : Digit} (h : d = fieldOp w) :
    d ++ BitVec.ofFin (w := 4) (fieldX w) ++ fieldKk w = w := by
  subst h
  apply BitVec.eq_of_toNat_eq
  rw [toNat_formatI, toNat_fieldOp, val_fieldX, toNat_fieldKk]
  omega

theorem digit_append_fieldX_fieldY_fieldZ {w : Word} {d : Digit} (h : d = fieldOp w) :
    d ++ BitVec.ofFin (w := 4) (fieldX w) ++ BitVec.ofFin (w := 4) (fieldY w) ++ fieldZ w = w := by
  subst h
  apply BitVec.eq_of_toNat_eq
  rw [toNat_formatR, toNat_fieldOp, val_fieldX, val_fieldY, toNat_fieldZ]
  omega

/-- No bit of a word is dropped by the decode cases: each keeps what its format does not fix (30_encoding R92, R102). -/
theorem encode_decodeByOp (w : Word) : encode (decodeByOp (fieldOp w).toNat w) = w := by
  have digit {d : Digit} {n : Nat} (hn : (fieldOp w).toNat = n) (hd : d.toNat = n) : d = fieldOp w :=
    BitVec.eq_of_toNat_eq (hd.trans hn.symm)
  have hop := (fieldOp w).isLt
  generalize hn : (fieldOp w).toNat = n at hop
  match n with
  | 3 | 4 => exact digit_append_fieldX_fieldKk (digit hn rfl)
  | 5 | 9 => exact digit_append_fieldX_fieldY_fieldZ (digit hn rfl)
  | 0 | 1 | 2 | 6 | 7 | 8 | 10 | 11 | 12 | 13 | 14 | 15 => exact digit_append_fieldNnn (digit hn rfl)
  | n + 16 => omega

theorem encode_decodeWord (w : Word) : encode (decodeWord w) = w := by
  unfold decodeWord
  split
  · next h => exact h.symm
  · split
    · next h => exact h.symm
    · exact encode_decodeByOp w

/-- Past the two exact words only group 0 could be ill formed, and its word would be one of them. -/
theorem wellFormed_of_encode_ne {i : Instr} (hcls : encode i ≠ 0x00E0#16) (hret : encode i ≠ 0x00EE#16) :
    i.WellFormed := by
  cases i with
  | unimpl0 u =>
    have hu : u ≠ 0x0E0#12 ∧ u ≠ 0x0EE#12 := ⟨by rintro rfl; exact hcls rfl, by rintro rfl; exact hret rfl⟩
    simpa [Instr.WellFormed, Instr.wellFormed] using hu
  | _ => rfl

theorem wellFormed_decodeWord (w : Word) : (decodeWord w).WellFormed := by
  by_cases hcls : w = 0x00E0#16
  · subst hcls; rfl
  by_cases hret : w = 0x00EE#16
  · subst hret; rfl
  exact wellFormed_of_encode_ne (by rwa [encode_decodeWord]) (by rwa [encode_decodeWord])

/-! ### The dispatched leading digits (30_encoding R97) -/

theorem decodeWord_of_one {w : Word} (h : w.toNat / 4096 = 1) : decodeWord w = .jp (fieldNnn w) :=
  decodeWord_of_op 1 h (by decide)

theorem decodeWord_of_two {w : Word} (h : w.toNat / 4096 = 2) : decodeWord w = .call (fieldNnn w) :=
  decodeWord_of_op 2 h (by decide)

theorem decodeWord_of_three {w : Word} (h : w.toNat / 4096 = 3) : decodeWord w = .seImm (fieldX w) (fieldKk w) :=
  decodeWord_of_op 3 h (by decide)

theorem decodeWord_of_four {w : Word} (h : w.toNat / 4096 = 4) : decodeWord w = .sneImm (fieldX w) (fieldKk w) :=
  decodeWord_of_op 4 h (by decide)

theorem decodeWord_of_five {w : Word} (h : w.toNat / 4096 = 5) :
    decodeWord w = .seReg (fieldX w) (fieldY w) (fieldZ w) := decodeWord_of_op 5 h (by decide)

theorem decodeWord_of_nine {w : Word} (h : w.toNat / 4096 = 9) :
    decodeWord w = .sneReg (fieldX w) (fieldY w) (fieldZ w) := decodeWord_of_op 9 h (by decide)

/-- Past the two exact words no other leading digit is dispatched (30_encoding R98). -/
theorem not_dispatched_of_leadingDigit {w : Word} (hcls : w ≠ 0x00E0#16) (hret : w ≠ 0x00EE#16)
    (hop : w.toNat / 4096 ∉ [1, 2, 3, 4, 5, 9]) : (decodeWord w).isDispatched = false := by
  rw [decodeWord, if_neg hcls, if_neg hret, toNat_fieldOp]
  generalize w.toNat / 4096 = n at hop
  match n with
  | 1 | 2 | 3 | 4 | 5 | 9 => simp at hop
  | 0 | 6 | 7 | 8 | 10 | 11 | 12 | 13 | 14 => rfl
  | _ + 15 => rfl

/-! ### The obligations -/

/-- Settles O1, by the round trip of each constructor. -/
theorem decodeOfEncodeIsTheInstruction : Obligations.DecodeOfEncodeIsTheInstruction := by
  unfold Obligations.DecodeOfEncodeIsTheInstruction
  exact fun i h => ⟨decodeWord_encode h, decode_encodeBytes_append h⟩

/-- Settles O2: no bit is dropped by the decoder, and uniqueness is the round trip the other way. -/
theorem everyWordDecodesToItsOneInstruction : Obligations.EveryWordDecodesToItsOneInstruction := by
  unfold Obligations.EveryWordDecodesToItsOneInstruction
  refine fun w => ⟨wellFormed_decodeWord w, encode_decodeWord w, fun i hi hw => ?_⟩
  rw [← hw, decodeWord_encode hi]

/-- Settles O5: the first three digits give the same registers, and no handler takes the fourth. -/
theorem digitFourOfRegisterFormsIsIgnored : Obligations.DigitFourOfRegisterFormsIsIgnored := by
  unfold Obligations.DigitFourOfRegisterFormsIsIgnored
  intro w w' s hop hdigits
  have hx : fieldX w = fieldX w' := Fin.ext (by rw [val_fieldX, val_fieldX]; omega)
  have hy : fieldY w = fieldY w' := Fin.ext (by rw [val_fieldY, val_fieldY]; omega)
  rcases hop with hop | hop
  · rw [decodeWord_of_five hop, decodeWord_of_five (w := w') (by omega), hx, hy]; rfl
  · rw [decodeWord_of_nine hop, decodeWord_of_nine (w := w') (by omega), hx, hy]; rfl

/-- Settles O4: ten closed words, each decoded by evaluation. -/
theorem listedWordsDecodeAsListed : Obligations.ListedWordsDecodeAsListed := by
  unfold Obligations.ListedWordsDecodeAsListed
  decide

end Sys2Proof.Machine
end

section
/-! The fetch of a Step: which bytes at PC make a word, half a word, or nothing; and a word placed for it (43_cycle). -/

namespace Sys2Proof.Machine

/-! ### The three results of a fetch -/

theorem assemble_eq_absent_iff (hi lo : Option Byte) : assemble hi lo = .absent ↔ hi = none ∧ lo = none := by
  cases hi <;> cases lo <;> simp [assemble]

theorem assemble_eq_half_iff (hi lo : Option Byte) : assemble hi lo = .half ↔ hi.isSome ≠ lo.isSome := by
  cases hi <;> cases lo <;> simp [assemble]

/-- The three cases of 43_cycle R182. -/
theorem fetch_eq_absent_iff (s : State) :
    s.fetch = .absent ↔ 0x1000 ≤ s.pc.toNat ∨ (s.pc.toNat = 0xFFF ∧ s.mem.read 0xFFF = none) ∨
      (s.pc.toNat ≤ 0xFFE ∧ s.mem.read s.pc.toNat = none ∧ s.mem.read (s.pc.toNat + 1) = none) := by
  rcases Nat.lt_trichotomy s.pc.toNat 0xFFF with hlt | heq | hgt
  · have hrange : ¬ 0x1000 ≤ s.pc.toNat ∧ s.pc.toNat ≠ 0xFFF ∧ s.pc.toNat ≤ 0xFFE := by omega
    rw [fetch_of_lt s hlt, assemble_eq_absent_iff]
    simp only [hrange, false_and, false_or, true_and]
  · rw [fetch_of_eq s heq, assemble_eq_absent_iff]
    simp [heq]
  · simp only [fetch_of_ge s hgt, true_iff]
    exact .inl hgt

/-- The two cases of 43_cycle R183. -/
theorem fetch_eq_half_of {s : State}
    (h : (s.pc.toNat = 0xFFF ∧ s.mem.read 0xFFF ≠ none) ∨
      (s.pc.toNat < 0xFFF ∧ (s.mem.read s.pc.toNat).isSome ≠ (s.mem.read (s.pc.toNat + 1)).isSome)) :
    s.fetch = .half := by
  obtain ⟨hpc, hbyte⟩ | ⟨hpc, hbytes⟩ := h
  · rw [fetch_of_eq s hpc, assemble_eq_half_iff]
    simpa [Option.isSome_iff_ne_none] using hbyte
  · rwa [fetch_of_lt s hpc, assemble_eq_half_iff]

theorem fetch_of_bytes {s : State} {w : Word} (hpc : s.pc.toNat < 0xFFF)
    (hhi : s.mem.read s.pc.toNat = some (highByte w)) (hlo : s.mem.read (s.pc.toNat + 1) = some (lowByte w)) :
    s.fetch = .word w := by
  rw [fetch_of_lt s hpc, hhi, hlo, assemble, wordOfBytes_high_low]

/-! ### A placed word -/

theorem tableWord_toNat (w : Word) : tableWord 16 w.toNat = w := by
  have := w.isLt
  apply BitVec.eq_of_toNat_eq
  rw [tableWord, BitVec.toNat_ofNat]
  omega

theorem withFetchWord_toNat (s : State) (w : Word) : s.withFetchWord 16 w.toNat = placeWord w s := by
  rw [State.withFetchWord, tableWord_toNat]

@[simp] theorem placeWord_fault (w : Word) (s : State) : (placeWord w s).fault = none := rfl

theorem placeAddr_lt (s : State) : placeAddr s < 0xFFF := by
  unfold placeAddr Config.writeHi Config.loadBase
  split <;> omega

theorem placeAddr_of_lt {s : State} (h : s.pc.toNat < 0xFFF) : placeAddr s = s.pc.toNat := by
  rw [placeAddr, if_pos h]

theorem placeWord_pc_toNat (w : Word) (s : State) : (placeWord w s).pc.toNat = placeAddr s := by
  have := placeAddr_lt s
  simp only [placeWord, BitVec.toNat_ofNat]
  omega

theorem placeWord_mem_read (w : Word) (s : State) (a : Nat) :
    (placeWord w s).mem.read a =
      if a = placeAddr s then some (highByte w) else if a = placeAddr s + 1 then some (lowByte w) else s.mem.read a := by
  simp only [placeWord, Memory_read_write]
  by_cases hhi : a = placeAddr s
  · rw [if_pos hhi, if_neg (by omega), if_pos hhi.symm]
  · rw [if_neg hhi, if_neg (Ne.symm hhi)]
    simp only [eq_comm]

theorem fetch_placeWord (w : Word) (s : State) : (placeWord w s).fetch = .word w := by
  refine fetch_of_bytes ?_ ?_ ?_
  · exact placeWord_pc_toNat w s ▸ placeAddr_lt s
  · rw [placeWord_pc_toNat, placeWord_mem_read, if_pos rfl]
  · rw [placeWord_pc_toNat, placeWord_mem_read, if_neg (by omega), if_pos rfl]

/-- On a machine that is not faulted and can fetch at PC, placing a word changes memory alone. -/
theorem placeWord_frame {w : Word} {s : State} (hf : s.fault = none) (hpc : s.pc.toNat < 0xFFF) :
    { placeWord w s with mem := s.mem } = s := by
  simp [placeWord, placeAddr_of_lt hpc, ← hf]

/-! ### Runs -/

theorem run_succ_of_next {s t : State} (h : step s = .next t) (k : Nat) :
    Host.Core.run core (k + 1) s = Host.Core.run core k t := by
  have hstep : core.step s = .next t := h
  simp only [Host.Core.run, hstep]

theorem run_succ_of_fault {s : State} {f : Fault} (h : step s = .fault f) (k : Nat) :
    Host.Core.run core (k + 1) s = .fault f := by
  have hstep : core.step s = .fault f := h
  simp only [Host.Core.run, hstep]

theorem run_of_step_self {s : State} (h : step s = .next s) (k : Nat) : Host.Core.run core k s = .next s := by
  induction k with
  | zero => rfl
  | succ k ih => exact (run_succ_of_next h k).trans ih

/-! ### The report of a Step -/

/-- The host's Step leaves the next state that `step` answers, with its report (45_host_interface R228). -/
theorem hostOp_step_of_next {s t : State} (h : step s = .next t) :
    hostOp .step s = .ok (t, .report (stepReport s t)) := by
  rw [hostOp, hostStep, h]

theorem stepReport_of_fault {s t : State} {f : Fault} (h : t.fault = some f) :
    stepReport s t = ⟨.fault f, some (f.recorded s)⟩ := by
  rw [stepReport, h]

theorem stepReport_of_absent {s t : State} (hf : t.fault = none) (h : s.fetch = .absent) :
    stepReport s t = ⟨.noMoreInstructions, some s.pc.toNat⟩ := by
  rw [stepReport, hf, h]

/-- The report says that no instruction is left exactly when the fetch found nothing (43_cycle R182, R189). -/
theorem outcome_noMoreInstructions_iff {s t : State} (h : step s = .next t) :
    (stepReport s t).outcome = .noMoreInstructions ↔ s.fetch = .absent := by
  obtain ⟨hf, ⟨hfetch, rfl⟩ | ⟨hfetch, rfl⟩ | ⟨w, hfetch, hexec⟩⟩ := step_cases h
  · simp [stepReport_of_absent hf hfetch, hfetch]
  · simp [stepReport_of_fault (State_takeFault_fault s .fetchPartial), hfetch]
  · obtain rfl | hlatch := exec_fault_cases hexec
    · simp [stepReport_of_fault (State_takeFault_fault s .stackUnset), hfetch]
    · simp [stepReport_of_word (hlatch.trans hf) hfetch, hfetch]

/-! ### The obligations -/

/-- Settles O7: a fetch at the place finds the word, and at a PC that can fetch the place is PC. -/
theorem placedWordIsTheNextInstruction : Obligations.PlacedWordIsTheNextInstruction := by
  unfold Obligations.PlacedWordIsTheNextInstruction
  intro s w
  rw [withFetchWord_toNat]
  refine ⟨step_word (placeWord_fault w s) (fetch_placeWord w s), fun hf hpc => ⟨placeWord_frame hf hpc, fun a => ?_⟩⟩
  rw [placeWord_mem_read, placeAddr_of_lt hpc]

/-- Settles O9: the outcome by the fetch, and the fetch by its three cases. -/
theorem noMoreInstructionsExactlyWhenBothBytesAbsent : Obligations.NoMoreInstructionsExactlyWhenBothBytesAbsent := by
  unfold Obligations.NoMoreInstructionsExactlyWhenBothBytesAbsent
  intro s t h
  refine ⟨(outcome_noMoreInstructions_iff h).trans (fetch_eq_absent_iff s), fun hout => ?_⟩
  have hfetch := (outcome_noMoreInstructions_iff h).mp hout
  have hf := (step_cases h).1
  rw [step_absent hf hfetch] at h
  cases h
  exact ⟨rfl, by rw [stepReport_of_absent hf hfetch]⟩

/-- Settles O10: a Step of an ended machine is that machine, and the latch is clear whatever memory and PC become. -/
theorem noMoreInstructionsIsNotLatched : Obligations.NoMoreInstructionsIsNotLatched := by
  unfold Obligations.NoMoreInstructionsIsNotLatched
  rintro s ⟨hf, hfetch⟩
  have hstep := step_absent hf hfetch
  refine ⟨run_of_step_self hstep, ?_, fun m p w hw => step_word hf hw⟩
  rw [hostOp_step_of_next hstep, stepReport_of_absent hf hfetch]

/-- Settles O6, by the fetch of the two bytes and the round trip of the instruction. -/
theorem stepRunsTheDecodedInstruction : Obligations.StepRunsTheDecodedInstruction := by
  unfold Obligations.StepRunsTheDecodedInstruction
  intro s i hf hi hpc hhi hlo
  rw [step_word hf (fetch_of_bytes hpc hhi hlo), decodeWord_encode hi]

/-- Settles O11: the two cases of half a word, and the report of the latch. -/
theorem partialFetchTakesTheFault : Obligations.PartialFetchTakesTheFault := by
  unfold Obligations.PartialFetchTakesTheFault
  intro s hf hcase
  have hstep := step_half hf (fetch_eq_half_of hcase)
  exact ⟨hstep, by rw [hostOp_step_of_next hstep]; rfl⟩

end Sys2Proof.Machine
end

section
/-! RET, the two faults, and when a Step answers a next state (40_control_transfer, 43_cycle). -/

namespace Sys2Proof.Machine

/-! ### RET -/

theorem exec_ret_of_slot {s : State} {r : Word} (h : s.top = some r) :
    exec .ret s = .next { s with pc := r + 2, sp := s.sp - 1 } := by
  rw [exec_ret_of_top h]
  simp [State.setPc, State.decSp, State.advance]

theorem execHostOp_ret_of_slot {s : State} {r : Word} (h : s.top = some r) :
    execHostOp .ret s = ({ s with pc := r, sp := s.sp - 1 }, .none) := by
  rw [execHostOp_ret_of_top h]
  simp [State.setPc, State.decSp]

theorem exec_ret_of_unset {s : State} (h : s.top = none) : exec .ret s = .next (s.takeFault .stackUnset) := by
  simp only [exec, execRet, handleRet, h, retire_error]

theorem execHostOp_ret_of_unset {s : State} (h : s.top = none) :
    execHostOp .ret s = (s.takeFault .stackUnset, .report ⟨.fault .stackUnset, some s.sp.toNat⟩) := by
  simp only [execHostOp, handleRet, h, Fault.recorded]

/-! ### When there is a next state -/

/-- Every instruction answers a next state, in every state. -/
theorem exec_answers (i : Instr) (s : State) : ∃ t, exec i s = .next t := by
  cases i with
  | ret =>
    cases htop : s.top with
    | none => exact ⟨_, exec_ret_of_unset htop⟩
    | some r => exact ⟨_, exec_ret_of_slot htop⟩
  | _ => exact ⟨_, rfl⟩

theorem step_answers {s : State} (hf : s.fault = none) : ∃ t, step s = .next t := by
  cases hfetch : s.fetch with
  | absent => exact ⟨_, step_absent hf hfetch⟩
  | half => exact ⟨_, step_half hf hfetch⟩
  | word w => rw [step_word hf hfetch]; exact exec_answers _ s

theorem step_eq_fault_iff (s : State) (f : Fault) : step s = .fault f ↔ s.fault = some f := by
  refine ⟨fun h => ?_, step_latched⟩
  cases hf : s.fault with
  | none =>
    obtain ⟨t, ht⟩ := step_answers hf
    rw [ht] at h
    cases h
  | some g =>
    rw [step_latched hf] at h
    cases h
    rfl

/-! ### The causes of a fault -/

theorem decodeWord_eq_iff {w : Word} {i : Instr} (hi : i.WellFormed) : decodeWord w = i ↔ w = encode i := by
  constructor
  · rintro rfl
    exact (encode_decodeWord w).symm
  · rintro rfl
    exact decodeWord_encode hi

/-- An instruction leaves the latch alone but for RET on an unset slot. -/
theorem exec_fault {i : Instr} {s t : State} (hslot : i ≠ .ret ∨ s.top ≠ none) (h : exec i s = .next t) :
    t.fault = s.fault := by
  obtain ⟨-, rfl⟩ | ⟨hi, htop, -⟩ | ⟨-, r, -, rfl⟩ | ⟨n, -, rfl⟩ | ⟨n, -, rfl⟩ | ⟨-, rfl | rfl⟩ | ⟨-, rfl⟩ :=
    exec_cases h
  case inr.inl => exact absurd hslot (by simp [hi, htop])
  all_goals rfl

/-- What a Step with a next state did, by the fault it raised or did not raise (43_cycle R189, R191). -/
theorem step_fault_cases {s t : State} (h : step s = .next t) :
    s.fault = none ∧
      ((s.fetch = .absent ∧ t = s) ∨ (s.fetch = .half ∧ t = s.takeFault .fetchPartial) ∨
        (s.fetch = .word 0x00EE ∧ s.top = none ∧ t = s.takeFault .stackUnset) ∨
        ∃ w, s.fetch = .word w ∧ ¬ (w = 0x00EE ∧ s.top = none) ∧ t.fault = none) := by
  obtain ⟨hf, habsent | hhalf | ⟨w, hfetch, hexec⟩⟩ := step_cases h
  · exact ⟨hf, .inl habsent⟩
  · exact ⟨hf, .inr (.inl hhalf)⟩
  · refine ⟨hf, .inr (.inr ?_)⟩
    by_cases hcause : w = 0x00EE ∧ s.top = none
    · obtain ⟨rfl, htop⟩ := hcause
      change exec .ret s = .next t at hexec
      rw [exec_ret_of_unset htop] at hexec
      cases hexec
      exact .inl ⟨hfetch, htop, rfl⟩
    · have hslot : decodeWord w ≠ .ret ∨ s.top ≠ none := by
        rwa [← not_and_or, decodeWord_eq_iff (i := .ret) rfl]
      exact .inr ⟨w, hfetch, hcause, (exec_fault hslot hexec).trans hf⟩

/-! ### The invariant -/

theorem step_wf {s t : State} (hwf : s.Wf) (h : step s = .next t) : t.Wf := by
  obtain ⟨-, ⟨-, rfl⟩ | ⟨-, rfl⟩ | ⟨w, -, hexec⟩⟩ := step_cases h
  · exact hwf
  · exact hwf
  · exact exec_wf hwf hexec

theorem faultCause_of_clear {s : State} (h : s.fault = none) : s.FaultCause := by simp [State.FaultCause, h]

/-! ### The obligations -/

/-- Settles O16: `exec_ret_of_slot` says what RET writes, and the slot is not among it. -/
theorem retReturnsTwoPastTheSlot : Obligations.RetReturnsTwoPastTheSlot := by
  unfold Obligations.RetReturnsTwoPastTheSlot
  exact ⟨rfl, fun s r h => ⟨exec_ret_of_slot h, execHostOp_ret_of_slot h⟩⟩

/-- Settles O17, by the fault of the handler. -/
theorem retOnUnsetSlotTakesTheFault : Obligations.RetOnUnsetSlotTakesTheFault := by
  unfold Obligations.RetOnUnsetSlotTakesTheFault
  exact fun s h => ⟨exec_ret_of_unset h, execHostOp_ret_of_unset h, step_latched rfl⟩

/-- Settles O20: the CALL left its own address on top, and one up and one down is SP as it was. -/
theorem callThenReturnContinuesAfterTheCall : Obligations.CallThenReturnContinuesAfterTheCall := by
  unfold Obligations.CallThenReturnContinuesAfterTheCall
  intro s t u nnn hcall hsp hslot
  obtain ⟨hsp_call, htop_call⟩ := exec_call_top hcall
  have htop : u.top = some s.pc := hslot.trans htop_call
  have hback : u.sp - 1 = s.sp := by rw [hsp, hsp_call]; bv_omega
  rw [exec_ret_of_slot htop, hback]

/-- Settles O13: with the latch clear some next state is answered, and with it set the fault is. -/
theorem unfaultedMachineAlwaysSteps : Obligations.UnfaultedMachineAlwaysSteps := by
  unfold Obligations.UnfaultedMachineAlwaysSteps
  exact fun s => ⟨fun ⟨_, h⟩ => (step_cases h).1, step_answers⟩

/-- Settles O12: no instruction answers a fault, so only the latch does. -/
theorem latchedFaultStopsEveryStep : Obligations.LatchedFaultStopsEveryStep := by
  unfold Obligations.LatchedFaultStopsEveryStep
  refine fun s f => ⟨step_eq_fault_iff s f, fun hf => ?_⟩
  have hstep := step_latched hf
  exact ⟨by rw [hostOp, hostStep, hstep], run_succ_of_fault hstep⟩

/-- Settles O14, by the four things a Step with a next state can have done. -/
theorem faultsArePrecise : Obligations.FaultsArePrecise := by
  unfold Obligations.FaultsArePrecise
  intro s t h
  refine ⟨hostOp_step_of_next h, ?_⟩
  change _ ∧ _ ∧ (_ ↔ _ ∧ s.top = none) ∧ (_ ↔ ∃ w, _ ∧ ¬ (w = _ ∧ s.top = none))
  obtain ⟨hf, ⟨hfetch, rfl⟩ | ⟨hfetch, rfl⟩ | ⟨hfetch, htop, rfl⟩ | ⟨w, hfetch, hcause, hf'⟩⟩ := step_fault_cases h
  · simp [stepReport_of_absent hf hfetch, hf, hfetch]
  · simp [stepReport_of_fault (State_takeFault_fault s .fetchPartial), hfetch]
    rfl
  · simp [stepReport_of_fault (State_takeFault_fault s .stackUnset), hfetch, htop]
    rfl
  · have hnotRet : ¬ (s.fetch = .word 0x00EE ∧ s.top = none) := by
      rintro ⟨hret, htop⟩
      rw [hfetch] at hret
      cases hret
      exact hcause ⟨rfl, htop⟩
    refine ⟨by simp [hf'], by simp [hf', hfetch], iff_of_false (by simp [hf']) hnotRet, ?_⟩
    exact iff_of_true (by rw [stepReport_of_word hf' hfetch]) ⟨w, hfetch, hcause⟩

/-- Settles O33: an instruction keeps the stores canonical, and a fault that is raised changes neither PC and memory, which
a fetch reads, nor SP and the slots. -/
theorem everyStepKeepsTheInvariant : Obligations.EveryStepKeepsTheInvariant := by
  unfold Obligations.EveryStepKeepsTheInvariant
  rintro s t ⟨hwf, hcause⟩ h
  constructor
  · exact step_wf hwf h
  · obtain ⟨-, ⟨-, rfl⟩ | ⟨hhalf, rfl⟩ | ⟨-, htop, rfl⟩ | ⟨w, -, -, hf'⟩⟩ := step_fault_cases h
    · exact hcause
    · exact ⟨fun _ => hhalf, nofun⟩
    · exact ⟨nofun, fun _ => htop⟩
    · exact faultCause_of_clear hf'

/-- Settles O34: both stores are empty and the latch is clear. -/
theorem resetHasTheInvariant : Obligations.ResetHasTheInvariant := by
  unfold Obligations.ResetHasTheInvariant
  exact ⟨reset_wf, faultCause_of_clear rfl⟩

end Sys2Proof.Machine
end

section
/-! What an instruction leaves unchanged, what a Step may change, and what any number of Steps keeps (10_state,
43_cycle). -/

namespace Sys2Proof.Machine

/-! ### The frame of an instruction, part by part -/

/-- No instruction writes a general register, I or memory (10_state sections 2 and 3, 20_memory section 4). -/
theorem exec_registers_memory {i : Instr} {s t : State} (h : exec i s = .next t) :
    t.v = s.v ∧ t.i = s.i ∧ t.mem = s.mem := by
  obtain ⟨-, rfl⟩ | ⟨-, -, rfl⟩ | ⟨-, r, -, rfl⟩ | ⟨n, -, rfl⟩ | ⟨n, -, rfl⟩ | ⟨-, rfl | rfl⟩ | ⟨-, rfl⟩ := exec_cases h
  all_goals exact ⟨rfl, rfl, rfl⟩

theorem exec_sp_cases {i : Instr} {s t : State} (h : exec i s = .next t) :
    t.sp = s.sp ∨ (∃ n, i = .call n ∧ t.sp = s.sp + 1) ∨ (i = .ret ∧ t.sp = s.sp - 1) := by
  obtain ⟨-, rfl⟩ | ⟨-, -, rfl⟩ | ⟨hret, r, -, rfl⟩ | ⟨n, -, rfl⟩ | ⟨n, hcall, rfl⟩ | ⟨-, rfl | rfl⟩ | ⟨-, rfl⟩ :=
    exec_cases h
  case inr.inr.inl => exact .inr (.inr ⟨hret, rfl⟩)
  case inr.inr.inr.inr.inl => exact .inr (.inl ⟨n, hcall, rfl⟩)
  all_goals exact .inl rfl

theorem exec_sp {i : Instr} {s t : State} (hret : i ≠ .ret) (hcall : ∀ n, i ≠ .call n) (h : exec i s = .next t) :
    t.sp = s.sp := by
  obtain hsp | ⟨n, hi, -⟩ | ⟨hi, -⟩ := exec_sp_cases h
  · exact hsp
  · exact absurd hi (hcall n)
  · exact absurd hi hret

theorem exec_stk_of_ne_call {i : Instr} {s t : State} (hcall : ∀ n, i ≠ .call n) (h : exec i s = .next t) :
    t.stk = s.stk := by
  obtain ⟨-, rfl⟩ | ⟨-, -, rfl⟩ | ⟨-, r, -, rfl⟩ | ⟨n, -, rfl⟩ | ⟨n, hi, -⟩ | ⟨-, rfl | rfl⟩ | ⟨-, rfl⟩ := exec_cases h
  case inr.inr.inr.inr.inl => exact absurd hi (hcall n)
  all_goals rfl

/-- The slots after a CALL: its own address in the one above SP (40_control_transfer R122). -/
theorem exec_call_stk_read {s t : State} {n : Word12} (h : exec (.call n) s = .next t) (k : Byte) :
    t.stk.read k = if s.sp + 1 = k then some s.pc else s.stk.read k := by
  rw [exec_call] at h
  cases h
  exact Stack_read_write ..

/-- The dispatched instructions deliver no diagnostic; the others one, with their word (43_cycle R186). -/
theorem exec_chan {i : Instr} {s t : State} (h : exec i s = .next t) :
    t.chan = if i.isDispatched then s.chan else s.chan ++ [Diag.unimplemented (encode i)] := by
  cases hi : i.isDispatched with
  | false =>
    rw [exec_of_not_dispatched hi] at h
    cases h
    rfl
  | true =>
    cases i with
    | ret =>
      cases htop : s.top with
      | none => rw [exec_ret_of_unset htop] at h; cases h; rfl
      | some r => rw [exec_ret_of_slot htop] at h; cases h; rfl
    | cls | jp n | call n => cases h; rfl
    | seImm x kk => rw [exec_seImm] at h; cases h; rfl
    | sneImm x kk => rw [exec_sneImm] at h; cases h; rfl
    | seReg x y z => rw [exec_seReg] at h; cases h; rfl
    | sneReg x y z => rw [exec_sneReg] at h; cases h; rfl
    | _ => cases hi

/-! ### Runs of Steps -/

/-- A relation between states that any Step makes, that holds of no Steps and that composes, holds of every run. -/
theorem run_rel {R : State → State → Prop} (hrefl : ∀ s, R s s) (htrans : ∀ {s t u}, R s t → R t u → R s u)
    (hstep : ∀ {s t : State}, step s = .next t → R s t) {k : Nat} {s t : State} (h : Host.Core.run core k s = .next t) :
    R s t := by
  induction k generalizing s with
  | zero =>
    cases h
    exact hrefl _
  | succ k ih =>
    cases hs : step s with
    | next u =>
      rw [run_succ_of_next hs] at h
      exact htrans (hstep hs) (ih h)
    | fault f =>
      rw [run_succ_of_fault hs] at h
      cases h
    | refused r =>
      have hrun : Host.Core.run core (k + 1) s = .refused r := by
        have hcore : core.step s = .refused r := hs
        simp only [Host.Core.run, hcore]
      rw [hrun] at h
      cases h

/-! ### A Step, part by part -/

theorem step_registers_memory {s t : State} (h : step s = .next t) : t.v = s.v ∧ t.i = s.i ∧ t.mem = s.mem := by
  obtain ⟨-, ⟨-, rfl⟩ | ⟨-, rfl⟩ | ⟨w, -, hexec⟩⟩ := step_cases h
  · exact ⟨rfl, rfl, rfl⟩
  · exact ⟨rfl, rfl, rfl⟩
  · exact exec_registers_memory hexec

/-- A Step that fetched CLS clears the display, and no other touches it (42_display R160, R168). -/
theorem step_disp_cases {s t : State} (h : step s = .next t) :
    t.disp = s.disp ∨ (s.fetch = .word 0x00E0 ∧ t.disp = Grid.allOff) := by
  obtain ⟨-, ⟨-, rfl⟩ | ⟨-, rfl⟩ | ⟨w, hfetch, hexec⟩⟩ := step_cases h
  · exact .inl rfl
  · exact .inl rfl
  · by_cases hcls : decodeWord w = .cls
    · obtain rfl := (decodeWord_eq_iff (i := .cls) rfl).mp hcls
      rw [hcls, exec_cls] at hexec
      cases hexec
      exact .inr ⟨hfetch, rfl⟩
    · exact .inl (exec_disp_of_ne_cls hcls hexec)

/-- A Step runs a CALL, whose word it fetched, or leaves every slot as it was (10_state section 5). -/
theorem step_stk_cases {s t : State} (h : step s = .next t) :
    t.stk = s.stk ∨ ∃ n : Word12, s.fetch = .word (encode (.call n)) ∧ exec (.call n) s = .next t := by
  obtain ⟨-, ⟨-, rfl⟩ | ⟨-, rfl⟩ | ⟨w, hfetch, hexec⟩⟩ := step_cases h
  · exact .inl rfl
  · exact .inl rfl
  · by_cases hcall : ∃ n, decodeWord w = .call n
    · obtain ⟨n, hcall⟩ := hcall
      obtain rfl := (decodeWord_eq_iff (i := .call n) rfl).mp hcall
      exact .inr ⟨n, hfetch, hcall ▸ hexec⟩
    · exact .inl (exec_stk_of_ne_call (not_exists.mp hcall) hexec)

/-! ### Where PC goes, by the leading digit (10_state section 4) -/

theorem exec_pc_of_transfer {s t : State} {w : Word} (hop : w.toNat / 4096 ∈ [1, 2])
    (h : exec (decodeWord w) s = .next t) : t.pc.toNat = w.toNat % 4096 + 2 := by
  rw [← toNat_fieldNnn, ← toNat_landing]
  obtain hone | htwo : w.toNat / 4096 = 1 ∨ w.toNat / 4096 = 2 := by simpa using hop
  · rw [decodeWord_of_one hone, exec_jp] at h
    cases h
    rfl
  · rw [decodeWord_of_two htwo, exec_call] at h
    cases h
    rfl

/-- The two landings of a skip instruction (41_conditional_load R146). -/
theorem pc_of_next_skip {s t : State} {p : Prop} [Decidable p]
    (h : (Host.Outcome.next { s with pc := if p then s.pc + 4 else s.pc + 2 } : Host.Outcome State Fault Refusal) =
      .next t) : t.pc = s.pc + 2 ∨ t.pc = s.pc + 4 := by
  cases h
  by_cases hp : p
  · exact .inr (if_pos hp)
  · exact .inl (if_neg hp)

theorem exec_pc_of_skip {s t : State} {w : Word} (hop : w.toNat / 4096 ∈ [3, 4, 5, 9])
    (h : exec (decodeWord w) s = .next t) : t.pc = s.pc + 2 ∨ t.pc = s.pc + 4 := by
  obtain hop | hop | hop | hop : w.toNat / 4096 = 3 ∨ w.toNat / 4096 = 4 ∨ w.toNat / 4096 = 5 ∨ w.toNat / 4096 = 9 := by
    simpa using hop
  · rw [decodeWord_of_three hop, exec_seImm] at h
    exact pc_of_next_skip h
  · rw [decodeWord_of_four hop, exec_sneImm] at h
    exact pc_of_next_skip h
  · rw [decodeWord_of_five hop, exec_seReg] at h
    exact pc_of_next_skip h
  · rw [decodeWord_of_nine hop, exec_sneReg] at h
    exact pc_of_next_skip h

theorem exec_pc_of_other {s t : State} {w : Word} (hret : w ≠ 0x00EE#16) (hop : w.toNat / 4096 ∉ [1, 2, 3, 4, 5, 9])
    (h : exec (decodeWord w) s = .next t) : t.pc = s.pc + 2 := by
  by_cases hcls : w = 0x00E0#16
  · subst hcls
    cases h
    rfl
  · rw [exec_of_not_dispatched (not_dispatched_of_leadingDigit hcls hret hop)] at h
    cases h
    rfl

/-! ### The obligations -/

/-- Settles O26, by the frame of each part of the state. -/
theorem everyInstructionKeepsItsFrame : Obligations.EveryInstructionKeepsItsFrame := by
  unfold Obligations.EveryInstructionKeepsItsFrame
  intro i s t h
  obtain ⟨hv, hi, hmem⟩ := exec_registers_memory h
  refine ⟨fun x => by rw [State.getV, State.getV, hv], hi, fun a => by rw [hmem], fun hcls c r => ?_,
    fun hret hcall => exec_sp hret hcall h, fun k hk => ?_, fun hslot => exec_fault hslot h, exec_chan h⟩
  · rw [exec_disp_of_ne_cls hcls h]
  · by_cases hcall : ∃ n, i = .call n
    · obtain ⟨n, rfl⟩ := hcall
      have hne : k ≠ s.sp + 1 := hk.resolve_left fun hnot => hnot n rfl
      rw [exec_call_stk_read h, if_neg hne.symm]
    · rw [exec_stk_of_ne_call (not_exists.mp hcall) h]

/-- Settles O27: each Step keeps these parts. -/
theorem runsKeepRegistersAndMemory : Obligations.RunsKeepRegistersAndMemory := by
  unfold Obligations.RunsKeepRegistersAndMemory
  intro k s t h
  refine run_rel (R := fun s t => t.v = s.v ∧ t.i = s.i ∧ t.mem = s.mem) (fun _ => ⟨rfl, rfl, rfl⟩) ?_
    step_registers_memory h
  rintro s t u ⟨hv, hi, hmem⟩ ⟨hv', hi', hmem'⟩
  exact ⟨hv'.trans hv, hi'.trans hi, hmem'.trans hmem⟩

/-- Settles O28: each Step keeps the display or clears it, and a cleared one stays cleared. -/
theorem runsOnlyClearTheDisplay : Obligations.RunsOnlyClearTheDisplay := by
  unfold Obligations.RunsOnlyClearTheDisplay
  intro k s t h
  have hdisp : t.disp = s.disp ∨ t.disp = Grid.allOff := by
    refine run_rel (R := fun s t => t.disp = s.disp ∨ t.disp = Grid.allOff) (fun _ => .inl rfl) ?_
      (fun hstep => (step_disp_cases hstep).imp_right And.right) h
    rintro s t u hst (htu | htu)
    · rwa [htu]
    · exact .inr htu
  exact hdisp.imp_right fun hoff c r => by rw [hoff, Grid_isOn_allOff]

/-- Settles O29: the instruction's record, and the round trip of the fetched word. -/
theorem stepEmitsAtMostOneUnimplemented : Obligations.StepEmitsAtMostOneUnimplemented := by
  unfold Obligations.StepEmitsAtMostOneUnimplemented
  intro s t h
  obtain ⟨-, ⟨-, rfl⟩ | ⟨-, rfl⟩ | ⟨w, hfetch, hexec⟩⟩ := step_cases h
  · exact .inl rfl
  · exact .inl rfl
  · have hchan := exec_chan hexec
    rw [encode_decodeWord] at hchan
    split at hchan
    · exact .inl hchan
    · exact .inr ⟨w, hfetch, hchan⟩

/-- Settles O30: only a CALL touches a slot, and of the slots only the one above SP. -/
theorem stepsWriteSlotsOnlyByCall : Obligations.StepsWriteSlotsOnlyByCall := by
  unfold Obligations.StepsWriteSlotsOnlyByCall
  intro s t k h hslot
  obtain hstk | ⟨n, hfetch, hexec⟩ := step_stk_cases h
  · rw [hstk] at hslot
    exact absurd rfl hslot
  · obtain ⟨hsp, htop⟩ := exec_call_top hexec
    have hk : s.sp + 1 = k := by
      by_contra hne
      rw [exec_call_stk_read hexec, if_neg hne] at hslot
      exact hslot rfl
    have hspk : t.sp = k := hsp.trans hk
    exact ⟨hk.symm, hspk, hspk ▸ htop, n, hfetch⟩

/-- Settles O31, by what the fetched word decodes to. -/
theorem stepsMoveSpByOneOrNot : Obligations.StepsMoveSpByOneOrNot := by
  unfold Obligations.StepsMoveSpByOneOrNot
  intro s t h hsp
  obtain ⟨-, ⟨-, rfl⟩ | ⟨-, rfl⟩ | ⟨w, hfetch, hexec⟩⟩ := step_cases h
  · exact absurd rfl hsp
  · exact absurd rfl hsp
  · obtain hsame | ⟨n, hcall, hup⟩ | ⟨hret, hdown⟩ := exec_sp_cases hexec
    · exact absurd hsame hsp
    · obtain rfl := (decodeWord_eq_iff (i := .call n) rfl).mp hcall
      exact .inl ⟨hup, n, hfetch⟩
    · obtain rfl := (decodeWord_eq_iff (i := .ret) rfl).mp hret
      exact .inr ⟨hdown, hfetch⟩

/-- Settles O32, by the four kinds of words; RET has its slot, since the Step raised no fault. -/
theorem stepMovesPcAsTheWordSays : Obligations.StepMovesPcAsTheWordSays := by
  unfold Obligations.StepMovesPcAsTheWordSays
  intro s t w hf hfetch h hf'
  rw [step_word hf hfetch] at h
  refine ⟨fun hop => exec_pc_of_transfer hop h, ?_, fun hop => exec_pc_of_skip hop h,
    fun hret hop => exec_pc_of_other hret hop h⟩
  rintro rfl
  change exec .ret s = .next t at h
  cases htop : s.top with
  | none =>
    rw [exec_ret_of_unset htop] at h
    cases h
    cases hf'
  | some r =>
    rw [exec_ret_of_slot htop] at h
    cases h
    exact ⟨r, htop, rfl⟩

end Sys2Proof.Machine
end

section
/-! What a Step does not read: I, memory but for two bytes, and the channel; the channel for every host operation
(10_state, 43_cycle, 60_exceptions). -/

namespace Sys2Proof.Machine

/-! ### Changing what no instruction reads -/

/-- The state with I and memory changed by any two functions, and `c` in front of the channel. -/
def State.withUnread (fi : Word → Word) (fm : Memory → Memory) (c : List Diag) (s : State) : State :=
  { s with i := fi s.i, mem := fm s.mem, chan := c ++ s.chan }

section
variable (fi : Word → Word) (fm : Memory → Memory) (c : List Diag) (s : State)

theorem withUnread_emit (d : Diag) : (s.withUnread fi fm c).emit d = (s.emit d).withUnread fi fm c := by
  simp only [State.withUnread, State.emit, List.append_assoc]

theorem exec_withUnread (i : Instr) :
    exec i (s.withUnread fi fm c) = onNext (State.withUnread fi fm c) (exec i s) := by
  cases hi : i.isDispatched with
  | false => rw [exec_of_not_dispatched hi, exec_of_not_dispatched hi, withUnread_emit]; rfl
  | true =>
    cases i with
    | cls => rfl
    | jp n => rfl
    | call n => rfl
    | ret =>
      have htop : (s.withUnread fi fm c).top = s.top := rfl
      cases hslot : s.top with
      | none => rw [exec_ret_of_unset hslot, exec_ret_of_unset (htop.trans hslot)]; rfl
      | some r => rw [exec_ret_of_slot hslot, exec_ret_of_slot (htop.trans hslot)]; rfl
    | seImm x kk => rw [exec_seImm, exec_seImm]; rfl
    | sneImm x kk => rw [exec_sneImm, exec_sneImm]; rfl
    | seReg x y z => rw [exec_seReg, exec_seReg]; rfl
    | sneReg x y z => rw [exec_sneReg, exec_sneReg]; rfl
    | _ => cases hi

/-- A Step of the changed state is the Step of the state, when the fetch finds the same. -/
theorem step_withUnread (h : (s.withUnread fi fm c).fetch = s.fetch) :
    step (s.withUnread fi fm c) = onNext (State.withUnread fi fm c) (step s) := by
  have hlatch : (s.withUnread fi fm c).fault = s.fault := rfl
  cases hf : s.fault with
  | some f => rw [step_latched hf, step_latched (hlatch.trans hf)]; rfl
  | none =>
    have hf' := hlatch.trans hf
    cases hfetch : s.fetch with
    | absent => rw [step_absent hf hfetch, step_absent hf' (h.trans hfetch)]; rfl
    | half => rw [step_half hf hfetch, step_half hf' (h.trans hfetch)]; rfl
    | word w => rw [step_word hf hfetch, step_word hf' (h.trans hfetch), exec_withUnread]

end

/-- A fetch sees no more of memory than the two bytes at PC and PC + 1. -/
theorem fetch_eq_of_bytes {s t : State} (hpc : t.pc = s.pc) (hhi : t.mem.read s.pc.toNat = s.mem.read s.pc.toNat)
    (hlo : t.mem.read (s.pc.toNat + 1) = s.mem.read (s.pc.toNat + 1)) : t.fetch = s.fetch := by
  have hpc' : t.pc.toNat = s.pc.toNat := by rw [hpc]
  rcases Nat.lt_trichotomy s.pc.toNat 0xFFF with hlt | heq | hgt
  · rw [fetch_of_lt s hlt, fetch_of_lt t (hpc' ▸ hlt), hpc', hhi, hlo]
  · rw [fetch_of_eq s heq, fetch_of_eq t (hpc'.trans heq), ← heq, hhi]
  · rw [fetch_of_ge s hgt, fetch_of_ge t (hpc' ▸ hgt)]

/-! ### The channel under every host operation -/

/-- The state with `c` in front of its channel. -/
def State.afterDiags (c : List Diag) (s : State) : State := { s with chan := c ++ s.chan }

section
variable (c : List Diag) (s : State)

theorem afterDiags_emit (d : Diag) : (s.afterDiags c).emit d = (s.emit d).afterDiags c :=
  withUnread_emit id id c s d

theorem afterDiags_memWrite (a n : Nat) : ((s.afterDiags c).memWrite a n).1 = ((s.memWrite a n).1).afterDiags c := by
  unfold State.memWrite
  dsimp only
  rw [afterDiags_emit]
  split <;> split <;> rfl

theorem afterDiags_loadAt (a : Nat) (ws : List Word) :
    (s.afterDiags c).loadAt a ws = (s.loadAt a ws).afterDiags c := by
  induction ws generalizing s a with
  | nil => rfl
  | cons w ws ih => simp only [State.loadAt, afterDiags_memWrite, ih]

theorem afterDiags_regWrite (sel : Byte) (n : Nat) :
    (s.afterDiags c).regWrite sel n = (s.regWrite sel n).afterDiags c := by
  unfold State.regWrite
  rw [afterDiags_emit]
  split <;> rfl

theorem afterDiags_regRead (sel : Byte) :
    (s.afterDiags c).regRead sel = ((s.regRead sel).1, (s.regRead sel).2.afterDiags c) := by
  unfold State.regRead
  rw [afterDiags_emit]
  split <;> rfl

theorem afterDiags_skipIf (b : Bool) : (s.afterDiags c).skipIf b = (s.skipIf b).afterDiags c := by
  cases b <;> rfl

theorem afterDiags_skipOnImm (want : Bool) (reg : Byte) (kk : Nat) :
    skipOnImm want reg kk (s.afterDiags c) = (skipOnImm want reg kk s).afterDiags c := by
  unfold skipOnImm
  rw [afterDiags_regRead]
  obtain ⟨n, h⟩ | h := regRead_cases s reg
  · simp only [h, afterDiags_skipIf]
  · simp only [h]

theorem afterDiags_skipOnReg (want : Bool) (reg reg2 : Byte) :
    skipOnReg want reg reg2 (s.afterDiags c) = (skipOnReg want reg reg2 s).afterDiags c := by
  unfold skipOnReg
  rw [afterDiags_regRead]
  obtain ⟨n, h⟩ | h := regRead_cases s reg
  · simp only [h, afterDiags_regRead]
    obtain ⟨m, h2⟩ | h2 := regRead_cases s reg2
    · simp only [h2, afterDiags_skipIf]
    · simp only [h2]
  · simp only [h, afterDiags_regRead]

theorem afterDiags_handleLdReg (reg reg2 : Byte) :
    handleLdReg reg reg2 (s.afterDiags c) = (handleLdReg reg reg2 s).afterDiags c := by
  unfold handleLdReg State.reportAccess
  rw [afterDiags_regRead]
  obtain ⟨n, h⟩ | h := regRead_cases s reg2
  · simp only [h, afterDiags_regWrite]
  · simp only [h, afterDiags_regRead]

theorem afterDiags_execHostOp (op : ExecOp) :
    execHostOp op (s.afterDiags c) = ((execHostOp op s).1.afterDiags c, (execHostOp op s).2) := by
  cases op with
  | ret =>
    have htop : (s.afterDiags c).top = s.top := rfl
    cases hslot : s.top with
    | none => rw [execHostOp_ret_of_unset hslot, execHostOp_ret_of_unset (htop.trans hslot)]; rfl
    | some r => rw [execHostOp_ret_of_slot hslot, execHostOp_ret_of_slot (htop.trans hslot)]; rfl
  | seImm reg kk => simp only [execHostOp, handleSeImm, afterDiags_skipOnImm]
  | sneImm reg kk => simp only [execHostOp, handleSneImm, afterDiags_skipOnImm]
  | seReg reg reg2 => simp only [execHostOp, handleSeReg, afterDiags_skipOnReg]
  | sneReg reg reg2 => simp only [execHostOp, handleSneReg, afterDiags_skipOnReg]
  | ldImm reg kk => simp only [execHostOp, handleLdImm, afterDiags_regWrite]
  | ldReg reg reg2 => simp only [execHostOp, afterDiags_handleLdReg]
  | _ => rfl

theorem afterDiags_hostStep : hostStep (s.afterDiags c) = onAnswer (State.afterDiags c) (hostStep s) := by
  have hstep : step (s.afterDiags c) = onNext (State.afterDiags c) (step s) := step_withUnread id id c s rfl
  rw [hostStep, hostStep, hstep]
  cases step s <;> rfl

theorem afterDiags_hostOp (o : HostOp) : hostOp o (s.afterDiags c) = onAnswer (State.afterDiags c) (hostOp o s) := by
  cases o with
  | load ws => simp only [hostOp, afterDiags_loadAt, onAnswer]
  | loadText text =>
    simp only [hostOp, afterDiags_loadAt]
    cases parseText text <;> rfl
  | memWrite a n => simp only [hostOp, afterDiags_memWrite, State_memWrite_stored, onAnswer]
  | regWrite sel n => simp only [hostOp, afterDiags_regWrite, onAnswer]
  | regRead sel => simp only [hostOp, afterDiags_regRead, onAnswer]
  | exec op => simp only [hostOp, afterDiags_execHostOp, onAnswer]
  | step => exact afterDiags_hostStep c s
  | _ => rfl

end

/-! ### The obligations -/

/-- Settles O37: the state with `c` on its channel is the one with an empty channel and `c` in front. -/
theorem channelIsOnlyAnOutput : Obligations.ChannelIsOnlyAnOutput := by
  unfold Obligations.ChannelIsOnlyAnOutput
  intro o s c
  have hfront : { s with chan := c } = State.afterDiags c { s with chan := [] } := by
    simp only [State.afterDiags, List.append_nil]
  rw [hfront]
  exact afterDiags_hostOp c { s with chan := [] } o

/-- Settles O38: no instruction reads I, and no fetch. -/
theorem stepsIgnoreTheIndexRegister : Obligations.StepsIgnoreTheIndexRegister := by
  unfold Obligations.StepsIgnoreTheIndexRegister
  exact fun s n => step_withUnread (fun _ => n) id [] s rfl

/-- Settles O39: no instruction reads memory, and the fetch reads the two bytes. -/
theorem stepReadsOnlyTheTwoBytesAtPc : Obligations.StepReadsOnlyTheTwoBytesAtPc := by
  unfold Obligations.StepReadsOnlyTheTwoBytesAtPc
  exact fun s m hhi hlo => step_withUnread id (fun _ => m) [] s (fetch_eq_of_bytes rfl hhi hlo)

end Sys2Proof.Machine
end

section
/-! Reads by select code, and what LD, SE and SNE do through Exec for every class of operand (10_state section 8,
41_conditional_load); the accessors of PC. -/

namespace Sys2Proof.Machine

/-! ### Reads by select code -/

theorem regRead_of_lt (s : State) (sel : Byte) (h : sel.toNat < 16) :
    s.regRead sel = (some (s.v[sel.toNat].setWidth 16), s) := by
  simp only [State.regRead, classify_of_lt sel h, State.getV]

theorem regRead_of_ge (s : State) (sel : Byte) (h : 0x11 ≤ sel.toNat) :
    s.regRead sel = (none, s.emit (.regAccess sel)) := by
  obtain hc | hc | hc := classify_of_ge sel h <;> simp only [State.regRead, hc]

theorem eq_index_of_toNat {sel : Byte} (h : sel.toNat = 0x10) : sel = 0x10#8 := BitVec.eq_of_toNat_eq h

/-- The codes up to that of I read as a value and change nothing (10_state R39). -/
theorem regRead_of_le (s : State) (sel : Byte) (h : sel.toNat ≤ 0x10) : ∃ m, s.regRead sel = (some m, s) := by
  obtain hlt | heq : sel.toNat < 16 ∨ sel.toNat = 0x10 := by omega
  · exact ⟨_, regRead_of_lt s sel hlt⟩
  · obtain rfl := eq_index_of_toNat heq
    exact ⟨_, regRead_index s⟩

theorem regRead_of_hostOp {s : State} {sel : Byte} {m : Word}
    (h : hostOp (.regRead sel) s = .ok (s, .reg (some m))) : s.regRead sel = (some m, s) := by
  simpa [hostOp, Prod.ext_iff, and_comm] using h

theorem reportAccess_of_le (s : State) (sel : Byte) (h : sel.toNat ≤ 0x10) : s.reportAccess sel = s := by
  obtain ⟨m, hm⟩ := regRead_of_le s sel h
  rw [State.reportAccess, hm]

theorem reportAccess_of_ge (s : State) (sel : Byte) (h : 0x11 ≤ sel.toNat) :
    s.reportAccess sel = s.emit (.regAccess sel) := by
  rw [State.reportAccess, regRead_of_ge s sel h]

/-! ### LD reg, reg2 -/

theorem handleLdReg_of_regRead {s : State} {reg2 : Byte} {m : Word} (h : s.regRead reg2 = (some m, s)) (reg : Byte) :
    handleLdReg reg reg2 s = s.regWrite reg m.toNat := by
  rw [handleLdReg, h]

theorem handleLdReg_of_ge (s : State) (reg : Byte) {reg2 : Byte} (h : 0x11 ≤ reg2.toNat) :
    handleLdReg reg reg2 s = (s.reportAccess reg).emit (.regAccess reg2) := by
  rw [handleLdReg, regRead_of_ge s reg2 h]
  exact reportAccess_of_ge _ reg2 h

theorem hostOp_ldReg (s : State) (reg reg2 : Byte) :
    hostOp (.exec (.ldReg reg reg2)) s = .ok (handleLdReg reg reg2 s, .none) := rfl

/-- A V register read with 16 bits and cut to 8 again is what it holds (10_state R22). -/
theorem ofNat_toNat_setWidth_byte (b : Byte) : BitVec.ofNat 8 (b.setWidth 16).toNat = b := by
  have := b.isLt
  apply BitVec.eq_of_toNat_eq
  rw [BitVec.toNat_ofNat, BitVec.toNat_setWidth]
  omega

/-- Writing back what was read changes nothing. -/
theorem regWrite_regRead_self {s : State} {sel : Byte} {m : Word} (h : s.regRead sel = (some m, s))
    (hsel : sel.toNat ≤ 0x10) : s.regWrite sel m.toNat = s := by
  obtain hlt | heq : sel.toNat < 16 ∨ sel.toNat = 0x10 := by omega
  · rw [regRead_of_lt s sel hlt] at h
    cases h
    rw [regWrite_of_lt s sel _ hlt, State.setV, ofNat_toNat_setWidth_byte]
    simp
  · obtain rfl := eq_index_of_toNat heq
    rw [regRead_index] at h
    cases h
    rw [regWrite_index, State.setI, BitVec.ofNat_toNat, BitVec.setWidth_eq]

/-! ### SE and SNE -/

theorem skipOnImm_of_ge (want : Bool) {reg : Byte} (kk : Nat) (s : State) (h : 0x11 ≤ reg.toNat) :
    skipOnImm want reg kk s = s.emit (.regAccess reg) := by
  rw [skipOnImm, regRead_of_ge s reg h]

/-- With an operand that is not general a register form reports each such operand in order, whichever skip it is
(41_conditional_load R148, 60_exceptions R260). -/
theorem skipOnReg_of_ge (want : Bool) {reg reg2 : Byte} (s : State) (h : 0x11 ≤ reg.toNat ∨ 0x11 ≤ reg2.toNat) :
    skipOnReg want reg reg2 s = (s.reportAccess reg).reportAccess reg2 := by
  by_cases hreg : 0x11 ≤ reg.toNat
  · rw [reportAccess_of_ge s reg hreg, skipOnReg, regRead_of_ge s reg hreg]
    rfl
  · have hreg2 := h.resolve_left hreg
    have hle : reg.toNat ≤ 0x10 := by omega
    obtain ⟨m, hm⟩ := regRead_of_le s reg hle
    rw [reportAccess_of_le s reg hle, reportAccess_of_ge s reg2 hreg2, skipOnReg, hm]
    simp only [regRead_of_ge s reg2 hreg2]

/-- The reports of two operands, as an append to the channel. -/
theorem reportAccess_reportAccess (s : State) (a b : Byte) :
    (s.reportAccess a).reportAccess b = { s with chan := s.chan ++
      ((if 0x11 ≤ a.toNat then [Diag.regAccess a] else []) ++ (if 0x11 ≤ b.toNat then [Diag.regAccess b] else [])) } := by
  have single (u : State) (sel : Byte) :
      u.reportAccess sel = { u with chan := u.chan ++ if 0x11 ≤ sel.toNat then [Diag.regAccess sel] else [] } := by
    split
    · next h => exact reportAccess_of_ge u sel h
    · next h => rw [reportAccess_of_le u sel (by omega), List.append_nil]
  rw [single _ b, single s a, List.append_assoc]

theorem skipOnReg_of_regRead (want : Bool) {s : State} {a b : Byte} {m n : Word} (ha : s.regRead a = (some m, s))
    (hb : s.regRead b = (some n, s)) : skipOnReg want a b s = s.skipIf (testEqual m n == want) := by
  simp only [skipOnReg, ha, hb]

theorem skipOnImm_of_regRead (want : Bool) {s : State} {a : Byte} {m : Word} (ha : s.regRead a = (some m, s))
    (kk : Nat) : skipOnImm want a kk s = s.skipIf (testEqual m ((BitVec.ofNat 8 kk).setWidth 16) == want) := by
  simp only [skipOnImm, ha]

theorem skipIf_testEqual_true (s : State) (m n : Word) :
    s.skipIf (testEqual m n == true) = if m = n then { s with pc := s.pc + 2 } else s := by
  simp only [State.skipIf, testEqual, beq_true, beq_iff_eq]
  rfl

theorem skipIf_testEqual_false (s : State) (m n : Word) :
    s.skipIf (testEqual m n == false) = if m ≠ n then { s with pc := s.pc + 2 } else s := by
  simp only [State.skipIf, testEqual, beq_false, Bool.not_eq_true', beq_eq_false_iff_ne]
  rfl

/-- A value equals an immediate as a 16-bit number when it is the immediate modulo 256 (41_conditional_load R140). -/
theorem eq_immediate_iff (m : Word) (kk : Nat) :
    m = (BitVec.ofNat 8 kk).setWidth 16 ↔ m.toNat = kk % 256 := by
  rw [setWidth_ofNat_byte, ← BitVec.toNat_inj, BitVec.toNat_ofNat]
  omega

/-! ### The obligations -/

/-- Settles O44, by the class of the select code. -/
theorem regReadBySelectCode : Obligations.RegReadBySelectCode := by
  unfold Obligations.RegReadBySelectCode
  intro s sel
  refine ⟨fun h => ?_, fun h => ?_, fun h => ?_⟩
  · rw [hostOp, regRead_of_lt s sel h, BitVec.ofNat_toNat]
  · obtain rfl := eq_index_of_toNat h
    rw [hostOp, regRead_index]
  · rw [hostOp, regRead_of_ge s sel h, State.emit]

/-- Settles O46: SetPC writes PC modulo 2^16. -/
theorem programCounterAccessorsMask : Obligations.ProgramCounterAccessorsMask := by
  unfold Obligations.ProgramCounterAccessorsMask
  exact fun s n => ⟨s.setPc n, rfl, rfl, BitVec.toNat_ofNat n 16, rfl⟩

/-- Settles O52: a source that reads is a register write of it, and any other is reported after the destination. -/
theorem loadRegisterThroughExec : Obligations.LoadRegisterThroughExec := by
  unfold Obligations.LoadRegisterThroughExec
  intro s reg reg2
  rw [hostOp_ldReg]
  refine ⟨fun h h2 => ?_, fun h h2 => ?_, fun h h2 => ?_, fun h h2 => ?_, fun h h2 => ?_, fun h h2 => ?_,
    fun h h2 => ?_, fun h h2 => ?_⟩
  · rw [handleLdReg_of_regRead (regRead_of_lt s reg2 h2), regWrite_of_lt s reg _ h, State.setV,
      ofNat_toNat_setWidth_byte]
  · obtain rfl := eq_index_of_toNat h
    rw [handleLdReg_of_regRead (regRead_of_lt s reg2 h2), regWrite_index, State.setI, BitVec.ofNat_toNat,
      BitVec.setWidth_eq, BitVec.ofNat_toNat]
  · obtain rfl := eq_index_of_toNat h2
    rw [handleLdReg_of_regRead (regRead_index s), regWrite_of_lt s reg _ h, State.setV, ofNat_mod_byte]
  · obtain rfl := eq_index_of_toNat h
    obtain rfl := eq_index_of_toNat h2
    rw [handleLdReg_of_regRead (regRead_index s), regWrite_regRead_self (regRead_index s) le_rfl]
  · rw [handleLdReg_of_ge s reg h2, reportAccess_of_le s reg h, State.emit]
  · rw [handleLdReg_of_ge s reg h2, reportAccess_of_ge s reg h, State.emit, State.emit, List.append_assoc]
    rfl
  · obtain ⟨m, hm⟩ := regRead_of_le s reg2 h2
    rw [handleLdReg_of_regRead hm, regWrite_of_ge s reg _ h, State.emit]
  · subst h
    obtain ⟨m, hm⟩ := regRead_of_le s reg h2
    rw [handleLdReg_of_regRead hm, regWrite_regRead_self hm h2]

/-- Settles O53: neither skip is reached, so both are the reports of their operands. -/
theorem skipsOnInvalidOperandsOnlyReport : Obligations.SkipsOnInvalidOperandsOnlyReport := by
  unfold Obligations.SkipsOnInvalidOperandsOnlyReport
  intro s a b n
  refine ⟨fun ha => ⟨?_, ?_⟩, fun hab => ⟨?_, ?_⟩⟩
  · rw [execHostOp, handleSeImm, skipOnImm_of_ge true n s ha, State.emit]
  · rw [execHostOp, handleSneImm, skipOnImm_of_ge false n s ha, State.emit]
  · rw [execHostOp, execHostOp, handleSeReg, handleSneReg, skipOnReg_of_ge true s hab, skipOnReg_of_ge false s hab]
  · rw [execHostOp, handleSeReg, skipOnReg_of_ge true s hab, reportAccess_reportAccess]

/-- Settles O54: with both values read, the skip is decided by their equality as 16-bit numbers. -/
theorem skipsThroughExecCompareTheValuesRead : Obligations.SkipsThroughExecCompareTheValuesRead := by
  unfold Obligations.SkipsThroughExecCompareTheValuesRead
  intro s a b m n kk hreadA hreadB
  have ha := regRead_of_hostOp hreadA
  have hb := regRead_of_hostOp hreadB
  simp only [execHostOp, handleSeReg, handleSneReg, handleSeImm, handleSneImm, skipOnReg_of_regRead _ ha hb,
    skipOnImm_of_regRead _ ha, skipIf_testEqual_true, skipIf_testEqual_false, eq_immediate_iff, ne_eq, and_self]

end Sys2Proof.Machine
end

section
/-! Load from the load base, byte by byte: what it stores, what it leaves, and what it reports (45_host_interface). -/

namespace Sys2Proof.Machine

theorem State_loadAt_cons (s : State) (a : Nat) (w : Word) (ws : List Word) :
    s.loadAt a (w :: ws) =
      ((s.memWrite a (highByte w).toNat).1.memWrite (a + 1) (lowByte w).toNat).1.loadAt (a + 2) ws := rfl

/-- A Load changes memory and the channel alone. -/
theorem State_loadAt_frame (s : State) (a : Nat) (ws : List Word) :
    s.loadAt a ws = { s with mem := (s.loadAt a ws).mem, chan := (s.loadAt a ws).chan } := by
  induction ws generalizing s a with
  | nil => rfl
  | cons w ws ih =>
    rw [State_loadAt_cons, ih, State_memWrite_frame _ (a + 1), State_memWrite_frame s a]

/-- A Load leaves every address outside the words' own, and every one that names no cell. -/
theorem State_loadAt_read_of_outside (s : State) (a : Nat) (ws : List Word) (x : Nat)
    (hx : x < a ∨ 0xFFF < x ∨ a + 2 * ws.length ≤ x) : (s.loadAt a ws).mem.read x = s.mem.read x := by
  induction ws generalizing s a with
  | nil => rfl
  | cons w ws ih =>
    rw [List.length_cons] at hx
    have hlow : ¬ (x = a + 1 ∧ a + 1 ≤ 0xFFF) := by omega
    have hhigh : ¬ (x = a ∧ a ≤ 0xFFF) := by omega
    rw [State_loadAt_cons, ih _ _ (by omega), State_memWrite_read, if_neg hlow, State_memWrite_read, if_neg hhigh]

/-- A Load stores word `k` in the two cells at `a + 2 * k`, where both are cells. -/
theorem State_loadAt_read_word {s : State} {a k : Nat} {ws : List Word} {w : Word} (hw : ws[k]? = some w)
    (hcell : a + 2 * k + 1 ≤ 0xFFF) :
    (s.loadAt a ws).mem.read (a + 2 * k) = some (highByte w) ∧
      (s.loadAt a ws).mem.read (a + 2 * k + 1) = some (lowByte w) := by
  induction ws generalizing s a k with
  | nil => cases hw
  | cons v ws ih =>
    rw [State_loadAt_cons]
    cases k with
    | zero =>
      obtain rfl : v = w := by simpa using hw
      constructor
      · rw [State_loadAt_read_of_outside _ _ _ _ (by omega), State_memWrite_read, if_neg (by omega),
          State_memWrite_read, if_pos (by omega), BitVec.ofNat_toNat, BitVec.setWidth_eq]
      · rw [State_loadAt_read_of_outside _ _ _ _ (by omega), State_memWrite_read, if_pos (by omega),
          BitVec.ofNat_toNat, BitVec.setWidth_eq]
    | succ k =>
      have hplace : a + 2 * (k + 1) = a + 2 + 2 * k := by omega
      rw [hplace]
      exact ih (by simpa using hw) (by omega)

/-- A Load reports, in ascending order, each of its addresses outside the write range (20_memory R62). -/
theorem State_loadAt_chan (s : State) (a : Nat) (ws : List Word) :
    (s.loadAt a ws).chan =
      s.chan ++ ((List.range' a (2 * ws.length)).filter outOfWriteRange).map Diag.memRange := by
  induction ws generalizing s a with
  | nil => simp [State.loadAt]
  | cons w ws ih =>
    have hlen : 2 * (w :: ws).length = 2 * ws.length + 1 + 1 := by rw [List.length_cons]; omega
    rw [State_loadAt_cons, ih, State_memWrite_chan, State_memWrite_chan, hlen, List.range'_succ, List.range'_succ,
      List.filter_cons, List.filter_cons]
    split <;> split <;> simp

/-- From the load base up, the addresses outside the write range are those past the last cell. -/
theorem filter_outOfWriteRange_range' (n : Nat) :
    (List.range' Config.loadBase n).filter outOfWriteRange = List.range' 0x1000 (n - 3584) := by
  have below (m : Nat) (hm : m ≤ 3584) : (List.range' Config.loadBase m).filter outOfWriteRange = [] := by
    rw [List.filter_eq_nil_iff]
    intro x hx
    rw [outOfWriteRange_iff]
    have := List.mem_range'_1.mp hx
    unfold Config.loadBase at this
    omega
  by_cases hn : n ≤ 3584
  · rw [below n hn, Nat.sub_eq_zero_of_le hn, List.range'_zero]
  · have hsplit : n = 3584 + (n - 3584) := by omega
    have above : (List.range' 0x1000 (n - 3584)).filter outOfWriteRange = List.range' 0x1000 (n - 3584) := by
      rw [List.filter_eq_self]
      intro x hx
      rw [outOfWriteRange_iff]
      have := List.mem_range'_1.mp hx
      omega
    calc (List.range' Config.loadBase n).filter outOfWriteRange
        = (List.range' Config.loadBase 3584 ++ List.range' 0x1000 (n - 3584)).filter outOfWriteRange := by
          rw [hsplit, ← List.range'_append_1, ← hsplit]
      _ = List.range' 0x1000 (n - 3584) := by rw [List.filter_append, below 3584 le_rfl, above, List.nil_append]

/-! ### The obligation -/

/-- Settles O49: the words by their cells, the rest by the frame, and the reports by their addresses; the load base is even,
so a word has both its cells or neither. -/
theorem loadPlacesWordsFromTheLoadBase : Obligations.LoadPlacesWordsFromTheLoadBase := by
  unfold Obligations.LoadPlacesWordsFromTheLoadBase
  intro s ws
  refine ⟨s.loadAt Config.loadBase ws, rfl, State_loadAt_frame s _ ws,
    fun k w hw hcell => State_loadAt_read_word hw (by unfold Config.loadBase; omega),
    State_loadAt_read_of_outside s _ ws, ?_⟩
  rw [State_loadAt_chan, filter_outOfWriteRange_range']

end Sys2Proof.Machine
end

section
/-! What each host operation may change (45_host_interface). -/

namespace Sys2Proof.Machine

/-! ### The handlers through Exec -/

theorem skipOnImm_frame (want : Bool) (reg : Byte) (kk : Nat) (s : State) :
    skipOnImm want reg kk s =
      { s with pc := (skipOnImm want reg kk s).pc, chan := (skipOnImm want reg kk s).chan } := by
  obtain h | h | h := skipOnImm_cases want reg kk s <;> rw [h] <;> rfl

theorem skipOnReg_frame (want : Bool) (reg reg2 : Byte) (s : State) :
    skipOnReg want reg reg2 s =
      { s with pc := (skipOnReg want reg reg2 s).pc, chan := (skipOnReg want reg reg2 s).chan } := by
  obtain h | h | h | h | h := skipOnReg_cases want reg reg2 s <;> rw [h] <;> rfl

theorem regWrite_frame (s : State) (sel : Byte) (n : Nat) :
    s.regWrite sel n =
      { s with v := (s.regWrite sel n).v, i := (s.regWrite sel n).i, chan := (s.regWrite sel n).chan } := by
  obtain ⟨x, h⟩ | h | h := regWrite_cases s sel n <;> rw [h] <;> rfl

theorem handleLdReg_frame (reg reg2 : Byte) (s : State) :
    handleLdReg reg reg2 s = { s with
      v := (handleLdReg reg reg2 s).v, i := (handleLdReg reg reg2 s).i, chan := (handleLdReg reg reg2 s).chan } := by
  obtain ⟨n, h⟩ | h | h := handleLdReg_cases reg reg2 s
  · rw [h]; exact regWrite_frame s reg n
  · rw [h]; rfl
  · rw [h]; rfl

theorem regRead_frame (s : State) (sel : Byte) : (s.regRead sel).2 = { s with chan := (s.regRead sel).2.chan } := by
  obtain ⟨m, h⟩ | h := regRead_cases s sel
  · rw [h]
  · rw [h]; rfl

theorem execHostOp_ret_frame (s : State) :
    (execHostOp .ret s).1 = { s with
      pc := (execHostOp .ret s).1.pc, sp := (execHostOp .ret s).1.sp, fault := (execHostOp .ret s).1.fault } := by
  cases htop : s.top with
  | none => rw [execHostOp_ret_of_unset htop]; rfl
  | some r => rw [execHostOp_ret_of_slot htop]

/-! ### The host's Step -/

theorem step_frame {s t : State} (h : step s = .next t) :
    t = { s with pc := t.pc, sp := t.sp, stk := t.stk, disp := t.disp, fault := t.fault, chan := t.chan } := by
  obtain ⟨hv, hi, hmem⟩ := step_registers_memory h
  rw [← hv, ← hi, ← hmem]

/-- A host operation has one answer. -/
theorem eq_of_hostOp {o : HostOp} {s t u : State} {r a : HostResult} (hu : hostOp o s = .ok (u, a))
    (h : hostOp o s = .ok (t, r)) : t = u :=
  congrArg Prod.fst (Except.ok.inj (h.symm.trans hu))

theorem hostOp_loadText_cases {s t : State} {text : List (List Char)} {r : HostResult}
    (h : hostOp (.loadText text) s = .ok (t, r)) :
    ∃ ws, parseText text = some ws ∧ t = s.loadAt Config.loadBase ws := by
  rw [hostOp] at h
  cases hws : parseText text with
  | none => rw [hws] at h; cases h
  | some ws => rw [hws] at h; cases h; exact ⟨ws, rfl, rfl⟩

/-! ### The obligation -/

/-- Settles O59, by the frame of each operation. -/
theorem hostOperationsChangeOnlyTheirState : Obligations.HostOperationsChangeOnlyTheirState := by
  unfold Obligations.HostOperationsChangeOnlyTheirState
  intro s t r
  refine ⟨fun h => ?_, fun text h => ?_, fun h => ?_, fun h => ?_, fun addr h => ?_, fun addr h => ?_,
    fun a b n op hop h => ?_, fun a b n op hop h => ?_, fun sprite x y op hop h => ?_, fun c w h => ?_, fun ws h => ?_,
    fun a n h => ?_, fun sel n h => ?_, fun n h => ?_, fun o ho h => ?_, fun n h => ?_, fun a n h => ?_, fun sel h => ?_,
    fun o ho h => ?_, fun item h => ?_⟩
  · rw [eq_of_hostOp rfl h]; rfl
  · obtain ⟨ws, -, rfl⟩ := hostOp_loadText_cases h
    exact State_loadAt_frame s _ ws
  · obtain ⟨hstep, -⟩ | ⟨f, rfl, -⟩ := hostOp_step_cases h
    · exact step_frame hstep
    · rfl
  · rw [eq_of_hostOp rfl h]; exact execHostOp_ret_frame s
  · rw [eq_of_hostOp rfl h]; rfl
  · rw [eq_of_hostOp rfl h]; rfl
  · fin_cases hop <;> rw [eq_of_hostOp rfl h]
    · exact skipOnImm_frame true a n s
    · exact skipOnImm_frame false a n s
    · exact skipOnReg_frame true a b s
    · exact skipOnReg_frame false a b s
  · fin_cases hop <;> rw [eq_of_hostOp rfl h]
    · exact regWrite_frame s a _
    · exact handleLdReg_frame a b s
  · fin_cases hop <;> rw [eq_of_hostOp rfl h] <;> rfl
  · exact eq_of_hostOp rfl h
  · rw [eq_of_hostOp rfl h]; exact State_loadAt_frame s _ ws
  · rw [eq_of_hostOp rfl h]; exact State_memWrite_frame s a.toNat n
  · rw [eq_of_hostOp rfl h]; exact regWrite_frame s sel n
  · rw [eq_of_hostOp rfl h]; rfl
  · fin_cases ho <;> rw [eq_of_hostOp rfl h] <;> rfl
  · rw [eq_of_hostOp rfl h]; rfl
  · exact eq_of_hostOp rfl h
  · rw [eq_of_hostOp rfl h]; exact regRead_frame s sel
  · fin_cases ho <;> exact eq_of_hostOp rfl h
  · exact eq_of_hostOp rfl h

end Sys2Proof.Machine
end

section
/-! Memory, the slots, the display and the latch under every host operation: the canonical form, equal contents, and what
only Reset or Clear undoes (10_state, 20_memory, 42_display). -/

namespace Sys2Proof.Machine

/-! ### All a host operation can do to the stores, the display and the latch -/

/-- The two states agree in memory, the slots, the display and the latch. -/
abbrev SameStores (s t : State) : Prop :=
  t.mem = s.mem ∧ t.stk = s.stk ∧ t.disp = s.disp ∧ t.fault = s.fault

theorem SameStores.refl (s : State) : SameStores s s := ⟨rfl, rfl, rfl, rfl⟩

theorem sameStores_skipOnImm (want : Bool) (reg : Byte) (kk : Nat) (s : State) :
    SameStores s (skipOnImm want reg kk s) := by
  rw [skipOnImm_frame]
  exact ⟨rfl, rfl, rfl, rfl⟩

theorem sameStores_skipOnReg (want : Bool) (reg reg2 : Byte) (s : State) :
    SameStores s (skipOnReg want reg reg2 s) := by
  rw [skipOnReg_frame]
  exact ⟨rfl, rfl, rfl, rfl⟩

theorem sameStores_regWrite (s : State) (sel : Byte) (n : Nat) : SameStores s (s.regWrite sel n) := by
  rw [regWrite_frame]
  exact ⟨rfl, rfl, rfl, rfl⟩

theorem sameStores_handleLdReg (reg reg2 : Byte) (s : State) : SameStores s (handleLdReg reg reg2 s) := by
  rw [handleLdReg_frame]
  exact ⟨rfl, rfl, rfl, rfl⟩

theorem sameStores_regRead (s : State) (sel : Byte) : SameStores s (s.regRead sel).2 := by
  rw [regRead_frame]
  exact ⟨rfl, rfl, rfl, rfl⟩

/-- All that Exec can do to the stores: the fault of RET, the slot of CALL, and the display operations. -/
theorem execHostOp_cases (op : ExecOp) (s : State) :
    SameStores s (execHostOp op s).1 ∨
    (execHostOp op s).1 = s.takeFault .stackUnset ∨
    (∃ addr, (execHostOp op s).1 = handleCall addr s) ∨
    (op = .clear ∧ (execHostOp op s).1 = handleClear s) ∨
    (∃ sprite x y, (execHostOp op s).1 = (handleDraw sprite x y s).1) := by
  cases op with
  | ret =>
    cases htop : s.top with
    | none => rw [execHostOp_ret_of_unset htop]; exact .inr (.inl rfl)
    | some r => rw [execHostOp_ret_of_slot htop]; exact .inl ⟨rfl, rfl, rfl, rfl⟩
  | call addr => exact .inr (.inr (.inl ⟨addr, rfl⟩))
  | clear => exact .inr (.inr (.inr (.inl ⟨rfl, rfl⟩)))
  | draw sprite x y => exact .inr (.inr (.inr (.inr ⟨sprite, x, y, rfl⟩)))
  | jp addr => exact .inl ⟨rfl, rfl, rfl, rfl⟩
  | cellOff c r => exact .inl (.refl s)
  | seImm reg kk => exact .inl (sameStores_skipOnImm true reg kk s)
  | sneImm reg kk => exact .inl (sameStores_skipOnImm false reg kk s)
  | seReg reg reg2 => exact .inl (sameStores_skipOnReg true reg reg2 s)
  | sneReg reg reg2 => exact .inl (sameStores_skipOnReg false reg reg2 s)
  | ldImm reg kk => exact .inl (sameStores_regWrite s reg _)
  | ldReg reg reg2 => exact .inl (sameStores_handleLdReg reg reg2 s)

/-- All a host operation can do (45_host_interface R221). -/
theorem hostOp_cases {o : HostOp} {s t : State} {r : HostResult} (h : hostOp o s = .ok (t, r)) :
    SameStores s t ∨ (o = .reset ∧ t = hostReset s) ∨ (∃ ws, t = s.loadAt Config.loadBase ws) ∨
      (∃ addr n, t = (s.memWrite addr n).1) ∨ (o = .step ∧ step s = .next t) ∨
      (∃ op, o = .exec op ∧ t = (execHostOp op s).1) := by
  cases o with
  | reset => obtain rfl := eq_of_hostOp rfl h; exact .inr (.inl ⟨rfl, rfl⟩)
  | load ws => obtain rfl := eq_of_hostOp rfl h; exact .inr (.inr (.inl ⟨ws, rfl⟩))
  | loadText text =>
    obtain ⟨ws, -, rfl⟩ := hostOp_loadText_cases h
    exact .inr (.inr (.inl ⟨ws, rfl⟩))
  | memWrite addr n => obtain rfl := eq_of_hostOp rfl h; exact .inr (.inr (.inr (.inl ⟨_, n, rfl⟩)))
  | step =>
    obtain ⟨hstep, -⟩ | ⟨f, rfl, -⟩ := hostOp_step_cases h
    · exact .inr (.inr (.inr (.inr (.inl ⟨rfl, hstep⟩))))
    · exact .inl (.refl t)
  | exec op =>
    obtain rfl := eq_of_hostOp rfl h
    exact .inr (.inr (.inr (.inr (.inr ⟨op, rfl, rfl⟩))))
  | regWrite sel n => rw [eq_of_hostOp rfl h]; exact .inl (sameStores_regWrite s sel n)
  | regRead sel => rw [eq_of_hostOp rfl h]; exact .inl (sameStores_regRead s sel)
  | setPc n | setSp n | incSp | decSp => obtain rfl := eq_of_hostOp rfl h; exact .inl ⟨rfl, rfl, rfl, rfl⟩
  | memRead | getPc | getSp | observe => obtain rfl := eq_of_hostOp rfl h; exact .inl (.refl _)

/-! ### The canonical form -/

theorem execHostOp_wf {s : State} (hwf : s.Wf) (op : ExecOp) : (execHostOp op s).1.Wf := by
  obtain ⟨hmem, hstk, -, -⟩ | h | ⟨addr, h⟩ | ⟨-, h⟩ | ⟨sprite, x, y, h⟩ := execHostOp_cases op s
  · rwa [State.Wf, hmem, hstk]
  · rwa [h]
  · rw [h]
    exact ⟨hwf.1, setTop_stk_wf (s := s.incSp) hwf.2 s.pc⟩
  · rwa [h]
  · rwa [h]

theorem hostOp_wf {o : HostOp} {s t : State} {r : HostResult} (hwf : s.Wf) (h : hostOp o s = .ok (t, r)) : t.Wf := by
  obtain ⟨hmem, hstk, -, -⟩ | ⟨-, rfl⟩ | ⟨ws, rfl⟩ | ⟨addr, n, rfl⟩ | ⟨-, hstep⟩ | ⟨op, -, rfl⟩ := hostOp_cases h
  · rwa [State.Wf, hmem, hstk]
  · exact reset_wf
  · rw [State_loadAt_frame]
    exact ⟨loadAt_mem_wf hwf.1 ws _, hwf.2⟩
  · exact ⟨memWrite_mem_wf hwf.1 addr n, (State_memWrite_stk s addr n).symm ▸ hwf.2⟩
  · exact step_wf hwf hstep
  · exact execHostOp_wf hwf op

theorem reaches_wf {s t : State} (h : Reaches s t) (hwf : s.Wf) : t.Wf := by
  induction h with
  | refl => exact hwf
  | op _ hop ih => exact hostOp_wf ih hop

/-! ### Equal contents -/

theorem Memory_ext {m n : Memory} (hm : m.wf) (hn : n.wf) (h : ∀ a, m.read a = n.read a) : m = n :=
  Sparse_ext hm hn fun a => by simpa [Memory.read] using h a

theorem Sparse_read_of_bound_le {α : Type} {bound : Nat} {m : Sparse α} (hm : Sparse.wf bound m) {k : Nat}
    (hk : bound ≤ k) : Sparse.read m k = none := by
  obtain ⟨-, hlt⟩ := hm
  induction m with
  | nil => rfl
  | cons p m ih =>
    obtain ⟨a, x⟩ := p
    obtain ⟨ha, hrest⟩ := List.forall_mem_cons.mp hlt
    rw [Sparse_read_cons, if_neg (by dsimp only at ha; omega), ih hrest]

theorem Stack_ext {m n : Stack} (hm : m.wf) (hn : n.wf) (h : ∀ k, m.read k = n.read k) : m = n := by
  refine Sparse_ext hm hn fun k => ?_
  by_cases hk : k < Config.stackSlots
  · have hslot := h (BitVec.ofNat 8 k)
    rwa [Stack.read, Stack.read, BitVec.toNat_ofNat, Nat.mod_eq_of_lt hk] at hslot
  · have hge := not_lt.mp hk
    rw [Sparse_read_of_bound_le hm hge, Sparse_read_of_bound_le hn hge]

/-! ### What is populated, set, latched or on stays so -/

theorem memWrite_populated {s : State} (addr n : Nat) {a : Nat} (h : s.mem.read a ≠ none) :
    (s.memWrite addr n).1.mem.read a ≠ none := by
  rw [State_memWrite_read]
  split
  · exact Option.some_ne_none _
  · exact h

theorem loadAt_populated {s : State} (base : Nat) (ws : List Word) {a : Nat} (h : s.mem.read a ≠ none) :
    (s.loadAt base ws).mem.read a ≠ none := by
  induction ws generalizing s base with
  | nil => exact h
  | cons w ws ih => exact ih (base + 2) (memWrite_populated _ _ (memWrite_populated _ _ h))

theorem Stack_write_set {m : Stack} (j : Byte) (w : Word) {k : Byte} (h : m.read k ≠ none) :
    (m.write j w).read k ≠ none := by
  rw [Stack_read_write]
  split
  · exact Option.some_ne_none _
  · exact h

theorem step_set {s t : State} (h : step s = .next t) {k : Byte} (hk : s.stk.read k ≠ none) : t.stk.read k ≠ none := by
  obtain hstk | ⟨n, -, hexec⟩ := step_stk_cases h
  · rwa [hstk]
  · rw [exec_call] at hexec
    cases hexec
    exact Stack_write_set _ _ hk

theorem handleDraw_isOn {s : State} (sprite : List Byte) (x y : Nat) {c r : Nat} (h : s.disp.isOn c r = true) :
    (handleDraw sprite x y s).1.disp.isOn c r = true :=
  ((draws_draw s.disp sprite x y).1 c r).mpr (.inl h)

/-! ### The obligations -/

/-- Settles O35, by all that a host operation can do. -/
theorem everyHostOperationKeepsTheStoresCanonical : Obligations.EveryHostOperationKeepsTheStoresCanonical := by
  unfold Obligations.EveryHostOperationKeepsTheStoresCanonical
  exact fun o s t r => hostOp_wf

/-- Settles O36: reachable stores are in canonical form, and a canonical store is its contents. -/
theorem reachableStatesAreDeterminedByTheirContents : Obligations.ReachableStatesAreDeterminedByTheirContents := by
  unfold Obligations.ReachableStatesAreDeterminedByTheirContents
  intro s t hs ht hv hi hpc hsp hfault hchan hmem hstk hdisp
  obtain ⟨hmem_s, hstk_s⟩ := reaches_wf hs reset_wf
  obtain ⟨hmem_t, hstk_t⟩ := reaches_wf ht reset_wf
  have hmem_eq := Memory_ext hmem_s hmem_t hmem
  have hstk_eq := Stack_ext hstk_s hstk_t hstk
  have hdisp_eq := Grid_ext hdisp
  cases s
  rw [State.mk.injEq]
  exact ⟨hv, hi, hpc, hsp, hstk_eq, hmem_eq, hdisp_eq, hfault, hchan⟩

/-- Settles O40: every operation but Reset keeps a store, or adds to it; and a latched machine takes no Step. -/
theorem onlyResetForgets : Obligations.OnlyResetForgets := by
  unfold Obligations.OnlyResetForgets
  intro o s t r hreset h
  obtain ⟨hmem, hstk, -, hfault⟩ | ⟨ho, -⟩ | ⟨ws, rfl⟩ | ⟨addr, n, rfl⟩ | ⟨-, hstep⟩ | ⟨op, -, rfl⟩ := hostOp_cases h
  · exact ⟨hfault ▸ id, fun a => hmem ▸ id, fun k => hstk ▸ id⟩
  · exact absurd ho hreset
  · refine ⟨fun hf => ?_, fun a => loadAt_populated _ ws, fun k hk => ?_⟩
    · rwa [State_loadAt_frame]
    · rwa [State_loadAt_frame]
  · exact ⟨fun hf => by rwa [State_memWrite_fault], fun a => memWrite_populated addr n,
      fun k hk => by rwa [State_memWrite_stk]⟩
  · obtain ⟨-, -, hmem⟩ := step_registers_memory hstep
    exact ⟨fun hf => absurd (step_cases hstep).1 hf, fun a => hmem ▸ id, fun k => step_set hstep⟩
  · obtain ⟨hmem, hstk, -, hfault⟩ | h | ⟨addr, h⟩ | ⟨-, h⟩ | ⟨sprite, x, y, h⟩ := execHostOp_cases op s
    · exact ⟨hfault ▸ id, fun a => hmem ▸ id, fun k => hstk ▸ id⟩
    · rw [h]
      exact ⟨fun _ => Option.some_ne_none _, fun a => id, fun k => id⟩
    · rw [h]
      exact ⟨id, fun a => id, fun k => Stack_write_set _ _⟩
    · rw [h]
      exact ⟨id, fun a => id, fun k => id⟩
    · rw [h]
      exact ⟨id, fun a => id, fun k => id⟩

/-- Settles O41: Draw only turns cells on, and of the rest only the three named touch the display. -/
theorem onlyClearTurnsCellsOff : Obligations.OnlyClearTurnsCellsOff := by
  unfold Obligations.OnlyClearTurnsCellsOff
  intro o s t r c w h hon hoff
  have unchanged (hdisp : t.disp = s.disp) : False := by
    rw [hdisp, hon] at hoff
    cases hoff
  obtain ⟨-, -, hdisp, -⟩ | ⟨ho, -⟩ | ⟨ws, rfl⟩ | ⟨addr, n, rfl⟩ | ⟨ho, hstep⟩ | ⟨op, ho, rfl⟩ := hostOp_cases h
  · exact (unchanged hdisp).elim
  · exact .inl ho
  · exact (unchanged (by rw [State_loadAt_frame])).elim
  · exact (unchanged (State_memWrite_disp s addr n)).elim
  · obtain hdisp | ⟨hfetch, -⟩ := step_disp_cases hstep
    · exact (unchanged hdisp).elim
    · exact .inr (.inr ⟨ho, hfetch⟩)
  · obtain ⟨-, -, hdisp, -⟩ | h | ⟨addr, h⟩ | ⟨hclear, -⟩ | ⟨sprite, x, y, h⟩ := execHostOp_cases op s
    · exact (unchanged hdisp).elim
    · exact (unchanged (by rw [h]; rfl)).elim
    · exact (unchanged (by rw [h]; rfl)).elim
    · exact .inr (.inl (hclear ▸ ho))
    · rw [h, handleDraw_isOn sprite x y hon] at hoff
      cases hoff

end Sys2Proof.Machine
end

section
/-! A second drawing of a sprite, Observe, and Reset (42_display, 45_host_interface, 70_reset_and_hazards). -/

namespace Sys2Proof.Machine

/-! ### Drawing twice -/

/-- The cells of a sprite are on after the first drawing, so the second turns none on and collides at each (42_display R165,
R166). -/
theorem draws_draw_again (g : Grid) (sprite : List Byte) (x y : Nat) :
    ((g.draw sprite x y).1.draw sprite x y).1 = (g.draw sprite x y).1 ∧
      (((g.draw sprite x y).1.draw sprite x y).2 = true ↔ ∃ c r, Drawn sprite x y c r) := by
  obtain ⟨hon, -⟩ := draws_draw g sprite x y
  obtain ⟨hon_again, hhit_again⟩ := draws_draw (g.draw sprite x y).1 sprite x y
  have drawn_on {c r : Nat} (h : Drawn sprite x y c r) : (g.draw sprite x y).1.isOn c r = true :=
    (hon c r).mpr (.inr h)
  constructor
  · refine Grid_ext fun c r => Bool.eq_iff_iff.mpr ?_
    rw [hon_again]
    exact or_iff_left_of_imp drawn_on
  · rw [hhit_again]
    simp only [Bool.false_eq_true, false_or]
    exact exists₂_congr fun c r => and_iff_left_of_imp drawn_on

/-! ### The obligations -/

/-- Settles O56, by `draws_draw_again` for the display, which is all that Draw writes. -/
theorem drawingTwiceErasesNothing : Obligations.DrawingTwiceErasesNothing := by
  unfold Obligations.DrawingTwiceErasesNothing
  intro s t sprite x y b h
  cases h
  obtain ⟨hgrid, hhit⟩ := draws_draw_again s.disp sprite x y
  refine ⟨_, ?_, hhit⟩
  rw [hostOp, execHostOp, handleDraw, handleDraw]
  dsimp only
  rw [hgrid]

/-- Settles O58: each item of Observe is a reading of the state. -/
theorem observeShowsAndChangesNothing : Obligations.ObserveShowsAndChangesNothing := by
  unfold Obligations.ObserveShowsAndChangesNothing
  refine fun s c r k => ⟨fun b h => ?_, rfl, rfl⟩
  cases h
  rw [cellOff, Bool.not_not]
  rfl

/-- Settles O60, by evaluating each part of the reset state. -/
theorem resetRestoresEveryPiece : Obligations.ResetRestoresEveryPiece := by
  unfold Obligations.ResetRestoresEveryPiece
  refine fun s => ⟨hostReset s, rfl, rfl, rfl, fun x => ?_, rfl, rfl, fun _ => rfl, fun _ => rfl, Grid_isOn_allOff, rfl,
    rfl, rfl⟩
  exact Vector.getElem_replicate ..

end Sys2Proof.Machine
end

section
/-! Program text: its hexadecimal digits, its words, and when Load refuses it (30_encoding R104, 45_host_interface R224). -/

namespace Sys2Proof.Machine

/-! ### Digits -/

/-- The character of a digit in capitals, by the table that `IsWordText` reads. -/
def digitChar (d : Digit) : Char :=
  ['0', '1', '2', '3', '4', '5', '6', '7', '8', '9', 'A', 'B', 'C', 'D', 'E', 'F'].getD d.toNat '0'

theorem hexDigit_digitChar (d : Digit) : hexDigit (digitChar d) = some d := by
  revert d
  decide

theorem digitChar_injective : Function.Injective digitChar := fun d e h =>
  Option.some.inj (by rw [← hexDigit_digitChar d, h, hexDigit_digitChar])

theorem toUpper_hexChar (d : Digit) : (hexChar d).toUpper = digitChar d := by
  revert d
  decide

theorem isHexDigit_digitChar (d : Digit) : IsHexDigit (digitChar d) := by
  unfold IsHexDigit
  revert d
  decide

/-- The 22 characters have a value, and it is that of their capital. -/
theorem map_digitChar_hexDigit {c : Char} (h : IsHexDigit c) : (hexDigit c).map digitChar = some c.toUpper := by
  have hall : (['0', '1', '2', '3', '4', '5', '6', '7', '8', '9', 'A', 'B', 'C', 'D', 'E', 'F', 'a', 'b', 'c', 'd', 'e',
      'f'].all fun c => (hexDigit c).map digitChar == some c.toUpper) = true := by decide
  exact eq_of_beq (List.all_eq_true.mp hall c h)

/-- Characters by their code, which is how `hexDigit` and `Char.toUpper` see them. -/
theorem isHexDigit_of_code {c : Char}
    (h : (0x30 ≤ c.toNat ∧ c.toNat ≤ 0x39) ∨ (0x41 ≤ c.toNat ∧ c.toNat ≤ 0x46) ∨ (0x61 ≤ c.toNat ∧ c.toNat ≤ 0x66)) :
    IsHexDigit c := by
  unfold IsHexDigit
  rw [← Char.ofNat_toNat c]
  generalize c.toNat = n at h
  obtain ⟨hlo, hhi⟩ | ⟨hlo, hhi⟩ | ⟨hlo, hhi⟩ := h <;> interval_cases n <;> decide

theorem isHexDigit_of_hexDigit {c : Char} {d : Digit} (h : hexDigit c = some d) : IsHexDigit c := by
  apply isHexDigit_of_code
  unfold hexDigit at h
  dsimp only at h
  split_ifs at h
  · exact .inl ‹_›
  · exact .inr (.inl ‹_›)
  · exact .inr (.inr ‹_›)

theorem digitChar_code_le (d : Digit) : (digitChar d).toNat ≤ 0x46 := by
  revert d
  decide

theorem toUpper_code_of_isLower {c : Char} (h : c.isLower = true) :
    0x61 ≤ c.toNat ∧ c.toUpper.toNat = c.toNat - 32 := by
  obtain ⟨hlo, hhi⟩ : 0x61 ≤ c.toNat ∧ c.toNat ≤ 0x7A := by simpa [Char.isLower, UInt32.le_iff_toNat_le] using h
  rw [Char.toUpper_eq_of_isLower h, Char.toNat_ofNat, if_pos (.inl (by omega))]
  exact ⟨hlo, rfl⟩

/-- Only a hexadecimal digit has one for its capital: a small letter is 32 codes above its capital. -/
theorem isHexDigit_of_toUpper {c : Char} {d : Digit} (h : c.toUpper = digitChar d) : IsHexDigit c := by
  by_cases hlower : c.isLower = true
  · obtain ⟨hlo, hcode⟩ := toUpper_code_of_isLower hlower
    have hhi := digitChar_code_le d
    rw [← h, hcode] at hhi
    exact isHexDigit_of_code (.inr (.inr ⟨hlo, by omega⟩))
  · rw [Char.toUpper_eq_of_not_isLower hlower] at h
    exact h ▸ isHexDigit_digitChar d

theorem hexDigit_eq_some_iff (c : Char) (d : Digit) : hexDigit c = some d ↔ c.toUpper = digitChar d := by
  constructor
  · intro h
    have hmap := map_digitChar_hexDigit (isHexDigit_of_hexDigit h)
    rw [h] at hmap
    exact (Option.some.inj hmap).symm
  · intro h
    obtain ⟨e, he, hchar⟩ := Option.map_eq_some_iff.mp (map_digitChar_hexDigit (isHexDigit_of_toUpper h))
    rw [he, digitChar_injective (hchar.trans h)]

theorem isHexDigit_iff (c : Char) : IsHexDigit c ↔ ∃ d, hexDigit c = some d :=
  ⟨fun h => (Option.map_eq_some_iff.mp (map_digitChar_hexDigit h)).imp fun _ => And.left,
    fun ⟨_, h⟩ => isHexDigit_of_hexDigit h⟩

/-! ### Words -/

/-- Four digits make the word whose digits they are (30_encoding R91). -/
theorem digits_append_eq_iff (a b c d : Digit) (w : Word) :
    a ++ b ++ c ++ d = w ↔
      a = w.extractLsb' 12 4 ∧ b = w.extractLsb' 8 4 ∧ c = w.extractLsb' 4 4 ∧ d = w.extractLsb' 0 4 := by
  have happend : BitVec.toNat (w := 16) (a ++ b ++ c ++ d) =
      ((a.toNat * 16 + b.toNat) * 16 + c.toNat) * 16 + d.toNat := toNat_formatR a b.toFin c.toFin d
  have := a.isLt
  have := b.isLt
  have := c.isLt
  have := d.isLt
  have := w.isLt
  simp only [← BitVec.toNat_inj, happend, BitVec.extractLsb'_toNat, Nat.shiftRight_eq_div_pow]
  constructor
  · intro h
    refine ⟨?_, ?_, ?_, ?_⟩ <;> omega
  · omega

theorem parseWord_eq_some_iff (cs : List Char) (w : Word) :
    parseWord cs = some w ↔ ∃ a b c d, cs = [a, b, c, d] ∧ hexDigit a = some (w.extractLsb' 12 4) ∧
      hexDigit b = some (w.extractLsb' 8 4) ∧ hexDigit c = some (w.extractLsb' 4 4) ∧
      hexDigit d = some (w.extractLsb' 0 4) := by
  constructor
  · intro h
    unfold parseWord at h
    split at h
    · next a b c d =>
      split at h
      · next a' b' c' d' ha hb hc hd =>
        obtain ⟨rfl, rfl, rfl, rfl⟩ := (digits_append_eq_iff a' b' c' d' w).mp (Option.some.inj h)
        exact ⟨a, b, c, d, rfl, ha, hb, hc, hd⟩
      · cases h
    · cases h
  · rintro ⟨a, b, c, d, rfl, ha, hb, hc, hd⟩
    simp only [parseWord, ha, hb, hc, hd]
    exact congrArg some ((digits_append_eq_iff _ _ _ _ w).mpr ⟨rfl, rfl, rfl, rfl⟩)

/-- `IsWordText` takes the digits of the word as numbers. -/
theorem isWordText_iff_toUpper (cs : List Char) (w : Word) :
    IsWordText cs w ↔ cs.map Char.toUpper = [digitChar (w.extractLsb' 12 4), digitChar (w.extractLsb' 8 4),
      digitChar (w.extractLsb' 4 4), digitChar (w.extractLsb' 0 4)] := by
  have hdigits : [w.toNat / 4096, w.toNat / 256 % 16, w.toNat / 16 % 16, w.toNat % 16] =
      [(w.extractLsb' 12 4).toNat, (w.extractLsb' 8 4).toNat, (w.extractLsb' 4 4).toNat, (w.extractLsb' 0 4).toNat] := by
    have hop : w.toNat / 4096 % 16 = w.toNat / 4096 := by have := w.isLt; omega
    simp only [BitVec.extractLsb'_toNat, Nat.shiftRight_eq_div_pow, Nat.reducePow, hop, Nat.div_one]
  rw [IsWordText, hdigits]
  rfl

theorem parseWord_eq_some_iff_isWordText (cs : List Char) (w : Word) : parseWord cs = some w ↔ IsWordText cs w := by
  rw [parseWord_eq_some_iff, isWordText_iff_toUpper]
  simp only [hexDigit_eq_some_iff]
  constructor
  · rintro ⟨a, b, c, d, rfl, ha, hb, hc, hd⟩
    simp only [List.map_cons, List.map_nil, ha, hb, hc, hd]
  · simp only [List.map_eq_cons_iff, List.map_eq_nil_iff]
    rintro ⟨a, _, rfl, ha, b, _, rfl, hb, c, _, rfl, hc, d, _, rfl, hd, rfl⟩
    exact ⟨a, b, c, d, rfl, ha, hb, hc, hd⟩

theorem exists_parseWord_iff (cs : List Char) :
    (∃ w, parseWord cs = some w) ↔ cs.length = 4 ∧ ∀ c ∈ cs, IsHexDigit c := by
  constructor
  · rintro ⟨w, hw⟩
    obtain ⟨a, b, c, d, rfl, ha, hb, hc, hd⟩ := (parseWord_eq_some_iff cs w).mp hw
    have hall := And.intro (isHexDigit_of_hexDigit ha) <| And.intro (isHexDigit_of_hexDigit hb) <|
      And.intro (isHexDigit_of_hexDigit hc) (isHexDigit_of_hexDigit hd)
    exact ⟨rfl, by simpa using hall⟩
  · rintro ⟨hlen, hall⟩
    obtain ⟨a, b, c, d, rfl⟩ := List.length_eq_four.mp hlen
    simp only [List.forall_mem_cons, isHexDigit_iff] at hall
    obtain ⟨⟨a', ha⟩, ⟨b', hb⟩, ⟨c', hc⟩, ⟨d', hd⟩, -⟩ := hall
    exact ⟨a' ++ b' ++ c' ++ d', by simp only [parseWord, ha, hb, hc, hd]⟩

theorem isWordText_wordDigits (w : Word) : IsWordText (wordDigits w) w := by
  rw [isWordText_iff_toUpper, wordDigits]
  simp only [List.map_cons, List.map_nil, toUpper_hexChar]

/-! ### Text -/

theorem parseText_eq_some_iff (text : List (List Char)) (ws : List Word) :
    parseText text = some ws ↔ List.Forall₂ IsWordText text ws := by
  induction text generalizing ws with
  | nil => simp [parseText, eq_comm]
  | cons cs text ih =>
    rw [List.forall₂_cons_left_iff]
    simp only [← ih, ← parseWord_eq_some_iff_isWordText, parseText]
    cases parseWord cs <;> cases parseText text <;> simp [eq_comm]

/-- A text has words exactly when each of its words is four hexadecimal digits. -/
theorem exists_isWordText_iff (text : List (List Char)) :
    (∃ ws, List.Forall₂ IsWordText text ws) ↔ ∀ cs ∈ text, cs.length = 4 ∧ ∀ c ∈ cs, IsHexDigit c := by
  simp only [← exists_parseWord_iff, parseWord_eq_some_iff_isWordText]
  induction text with
  | nil => simp
  | cons cs text ih =>
    rw [List.forall_mem_cons, ← ih]
    simp only [List.forall₂_cons_left_iff]
    constructor
    · rintro ⟨_, w, ws, hw, hws, rfl⟩
      exact ⟨⟨w, hw⟩, ws, hws⟩
    · rintro ⟨⟨w, hw⟩, ws, hws⟩
      exact ⟨w :: ws, w, ws, hw, hws, rfl⟩

theorem hostOp_loadText {text : List (List Char)} {ws : List Word} (h : List.Forall₂ IsWordText text ws) (s : State) :
    hostOp (.loadText text) s = hostOp (.load ws) s := by
  have hparse := (parseText_eq_some_iff text ws).mpr h
  simp only [hostOp, hparse]

theorem hostOp_loadText_of_malformed {text : List (List Char)} (h : ¬ ∃ ws, List.Forall₂ IsWordText text ws)
    (s : State) : hostOp (.loadText text) s = .error .malformedProgramText := by
  rw [hostOp]
  cases hparse : parseText text with
  | none => rfl
  | some ws => exact absurd ⟨ws, (parseText_eq_some_iff text ws).mp hparse⟩ h

/-! ### The obligation -/

/-- Settles O50: the parser answers exactly the words the text writes, and it writes some when each word is four digits. -/
theorem malformedProgramTextIsRefused : Obligations.MalformedProgramTextIsRefused := by
  unfold Obligations.MalformedProgramTextIsRefused
  intro s text
  refine ⟨fun ⟨cs, hcs, hbad⟩ => ?_, fun hgood => ?_, fun ws h => hostOp_loadText h s, fun ws => ?_⟩
  · exact hostOp_loadText_of_malformed (fun hwords => hbad ((exists_isWordText_iff text).mp hwords cs hcs)) s
  · obtain ⟨ws, hws⟩ := (exists_isWordText_iff text).mpr hgood
    exact ⟨ws, hws, hostOp_loadText hws s⟩
  · apply hostOp_loadText
    rw [List.forall₂_map_left_iff, List.forall₂_same]
    exact fun w _ => isWordText_wordDigits w

end Sys2Proof.Machine
end
